-- ==== Sys2Proof/Word.lean ====
section
/-! DEFINITION. The widths of the block's values (10_state.md R10, 30_encoding.md R41, R44, R48). All values are
unsigned and bit 0 is the least significant bit (R4, R5). -/

namespace Sys2Proof

/-- A command code, the value of the `cmd` port (R41). -/
abbrev Cmd := BitVec 8

/-- A 32-bit frame word, format FRAME32 (R44). -/
abbrev FrameWord := BitVec 32

/-- A requested duration in microseconds, the 16-bit operand of a segment (R48, D8). -/
abbrev Dur := BitVec 16

/-- A segment word, format SEG17 (R48). -/
abbrev SegWord := BitVec 17

/-- The least q with q * b at least a, for b at least 1, over the unbounded naturals (R5). -/
def ceilDiv (a b : Nat) : Nat := (a + b - 1) / b

end Sys2Proof
end

