-- ==== Sys2Proof/Config.lean ====
section
/-! DEFINITION. What is fixed when the block is built: the parameter record of 00_scope.md R3 (R19: constants, not
state), the constraint a record must meet, and the one value the spec leaves unstated, as an opaque constant. The
record the model is built with is `Sys2Proof.cfg` (Machine/Build.lean). -/

namespace Sys2Proof

/-- The parameters of R3. Durations are natural numbers of microseconds, so that a record that breaks the constraint
(a duration above 65535) can be written down and refused (R131). `F_CLK` is no field: no rule depends on it (R3). -/
structure Config where
  /-- `T_HIGH`: high part of a carrier cycle. -/
  tHigh : Nat
  /-- `T_LOW`: low part of a carrier cycle. -/
  tLow : Nat
  /-- `T_LEAD_MARK`. -/
  tLeadMark : Nat
  /-- `T_LEAD_SPACE`. -/
  tLeadSpace : Nat
  /-- `T_BIT_MARK`. -/
  tBitMark : Nat
  /-- `T_ONE_SPACE`: the space after the mark of a data bit equal to 1. -/
  tOneSpace : Nat
  /-- `T_ZERO_SPACE`: the space after the mark of a data bit equal to 0. -/
  tZeroSpace : Nat
  /-- `T_STOP_MARK`. -/
  tStopMark : Nat
  /-- `REMOTE_ID`. -/
  remoteId : BitVec 8
  /-- `DEVICE_ID`, an open parameter (D13). -/
  deviceId : BitVec 16
  /-- `CMD_MENU`. -/
  cmdMenu : Cmd
  /-- `CMD_PLAY`, an open parameter (D14). -/
  cmdPlay : Cmd
  /-- `CMD_LEFT`, an open parameter (D14). -/
  cmdLeft : Cmd
  /-- `CMD_RIGHT`, an open parameter (D14). -/
  cmdRight : Cmd
  /-- `CMD_UP`. -/
  cmdUp : Cmd
  /-- `CMD_DOWN`, an open parameter (D14). -/
  cmdDown : Cmd
  deriving DecidableEq, Repr

/-- `T_CYCLE` = `T_HIGH` + `T_LOW` (R3). -/
def Config.tCycle (k : Config) : Nat := k.tHigh + k.tLow

/-- A duration the frame sequence may use: 1 .. 65535 (R3, D20). -/
def Config.durOk (d : Nat) : Bool := 1 ≤ d && d ≤ 65535

/-- The constraint of R3 (D20): `T_HIGH` at least 1 and every mark and space in 1 .. 65535. A model runs with every record
that meets it and refuses every other (R131). -/
def Config.valid (k : Config) : Bool :=
  1 ≤ k.tHigh && Config.durOk k.tLeadMark && Config.durOk k.tLeadSpace && Config.durOk k.tBitMark
    && Config.durOk k.tOneSpace && Config.durOk k.tZeroSpace && Config.durOk k.tStopMark

/-- The value of `BITCNT` after a SHIFT issued at `BITCNT` = 0, which the spec never issues (R80) and states no value
for: a free value, the n-th one drawn. DESIGN CHOICE, safe: log 12. -/
opaque Config.freeBitcnt : Nat → BitVec 6

end Sys2Proof
end

