-- ==== Sys2Proof/Machine/Build.lean ====
section
/-! DEFINITION. The parameter record that the host's fixed names (`exec`, `step`, `decodeTableWord`) run with: the source's values of 00_scope.md R3, and the spec's
defaults for the five open parameters. -/

namespace Sys2Proof

/-- The values of R3. `deviceId` (D13) and the codes of play, left, right and down (D14) are OPEN in the spec; they
stand at the spec's defaults, which it marks as general knowledge. PRESUMED, unsafe: log 1, log 2. -/
def cfg : Config where
  tHigh := 10
  tLow := 16
  tLeadMark := 9000
  tLeadSpace := 4500
  tBitMark := 560
  tOneSpace := 565
  tZeroSpace := 1690
  tStopMark := 560
  remoteId := 1
  deviceId := 0x7811
  cmdMenu := 0xFC
  cmdPlay := 0xFA
  cmdLeft := 0xF6
  cmdRight := 0xF9
  cmdUp := 0xF5
  cmdDown := 0xF3

end Sys2Proof
end

