-- ==== Sys2Proof/Syntax.lean ====
section
/-! DEFINITION. The operations (one constructor per row of spec/opcode_table.json) and the words they are written in,
one kind of word per format of 30_encoding.md R40. -/

namespace Sys2Proof

/-- The operations of the block. -/
inductive Instr where
  /-- `SEND c`: transmit one frame (R85). -/
  | send (c : Cmd)
  /-- `MENU` (R111). -/
  | menu
  /-- `PLAY` (R112). -/
  | play
  /-- `LEFT` (R113). -/
  | left
  /-- `RIGHT` (R114). -/
  | right
  /-- `UP` (R115). -/
  | up
  /-- `DOWN` (R116). -/
  | down
  /-- `BURST t`: carrier burst of requested duration t (R60). -/
  | burst (t : Dur)
  /-- `SPACE t`: hold the line low for t ticks (R87). -/
  | space (t : Dur)
  /-- `ASSEMBLE c`: build the frame of the command c (R76), whose only operand is c. d is the field of the word the table
  shows for it, R44's constant `DEVICE_ID`: no other value is well formed, and the meaning does not look at it (R50). -/
  | assemble (c : Cmd) (d : BitVec 16)
  /-- `SHIFT`: advance to the next data bit (R80). -/
  | shift
  /-- `BIT1`: the wire symbol of a data bit equal to 1 (R46). -/
  | bit1
  /-- `BIT0`: the wire symbol of a data bit equal to 0 (R46). -/
  | bit0
  /-- `LEADER`: the wire symbol that opens a frame (R46). -/
  | leader
  /-- `STOP`: the wire symbol that closes a frame (R46). -/
  | stop
  deriving DecidableEq, Repr

/-- A word for a sub-block on the bench: a segment word, a frame word, a data symbol, or one of the three operations
to which the spec gives no encoding and which therefore stand under their names. -/
inductive BenchWord where
  /-- Format SEG17 (R48). -/
  | seg17 (w : SegWord)
  /-- Format FRAME32 (R44). -/
  | frame32 (w : FrameWord)
  /-- Format WIRE1 (R46). -/
  | wire1 (b : BitVec 1)
  /-- `SHIFT`, no encoding (R80). -/
  | shift
  /-- `LEADER`, no pattern (R46). -/
  | leader
  /-- `STOP`, no pattern (R46). -/
  | stop
  deriving DecidableEq, Repr

/-- A word: a command word on the `cmd` port (R41), or a word for the bench. -/
inductive CodeWord where
  /-- Format CMD8 (R41). -/
  | cmd8 (c : Cmd)
  | bench (w : BenchWord)
  deriving DecidableEq, Repr

/-- Why a word or a number is no operation. -/
inductive Reject where
  /-- A FRAME32 word whose bits 31:24 are not `REMOTE_ID`: the encoder never produces it (R44, R50). -/
  | otherRemoteId
  /-- A FRAME32 word whose bits 15:0 are not `DEVICE_ID`: the encoder never produces it (R44, R50). -/
  | otherDeviceId
  /-- A number of bits that is the width of no format (R40), or of an operation without an encoding. -/
  | noSuchFormat
  /-- A number with a bit set above the width of its format. -/
  | strayBits
  deriving DecidableEq, Repr

/-- A segment of the segment list, view (a) of R8: the micro-operations the sequencer issues. -/
inductive Seg where
  | burst (t : Dur)
  | space (t : Dur)
  deriving DecidableEq, Repr

end Sys2Proof
end

