-- ==== Sys2Proof/WellFormed.lean ====
section
/-! DEFINITION. Which operations are the canonical reading of a word, under the record k. Every operand value the types
admit is legal (R43, R48, R50), but for the device field of a frame word, which is the constant `DEVICE_ID` (R44, R50).
The other checks: a `SEND` of a code that has a name is written under the name, and, since the six codes need not be
distinct (N2), a name whose code has another name too is written under the first of them in the order of R110. The
meaning of an ill-formed term is that of the well-formed one with its command (R42, R76), so `exec` does not ask for
these checks. -/

namespace Sys2Proof

/-- The six codes that have a name (R42). -/
def namedCodes (k : Config) : List Cmd := [k.cmdMenu, k.cmdPlay, k.cmdLeft, k.cmdRight, k.cmdUp, k.cmdDown]

/-- The operation is the one that the decoder reads from its own word. -/
def Instr.wellFormed (k : Config) : Instr → Bool
  | .send c => !(namedCodes k).contains c
  | .menu => true
  | .play => !((namedCodes k).take 1).contains k.cmdPlay
  | .left => !((namedCodes k).take 2).contains k.cmdLeft
  | .right => !((namedCodes k).take 3).contains k.cmdRight
  | .up => !((namedCodes k).take 4).contains k.cmdUp
  | .down => !((namedCodes k).take 5).contains k.cmdDown
  | .assemble _ d => d == k.deviceId
  | .burst _ | .space _ | .shift => true
  | .bit1 | .bit0 | .leader | .stop => true

end Sys2Proof
end

