-- ==== Sys2Proof/Decode.lean ====
section
/-! DEFINITION. The decoder, total on the words of every format, rejecting by name; after it the encoder, written from
the same tables of 30_encoding.md; then both on plain numbers, as spec/opcode_table.json numbers the bits. All of it
takes the parameter record k, and with it the command codes and the device identifier, as an argument (R42);
`decodeTableWord` is the host's view of it under the record `cfg`. -/

namespace Sys2Proof

/-- Format CMD8 (R41, R43): every word is legal. A code that has a name is read as the name (the first of them, where
codes coincide), as the table's rows do; by R42 the name and the `SEND` are one operation. DESIGN CHOICE, safe: log 8. -/
def decodeCmd8 (k : Config) (c : Cmd) : Instr :=
  if c = k.cmdMenu then .menu
  else if c = k.cmdPlay then .play
  else if c = k.cmdLeft then .left
  else if c = k.cmdRight then .right
  else if c = k.cmdUp then .up
  else if c = k.cmdDown then .down
  else .send c

/-- Format SEG17 (R48): bit 16 is the kind, bits 15:0 the duration as it stands (R49). -/
def decodeSeg17 (w : SegWord) : Instr :=
  if w.getLsbD 16 then .burst (w.extractLsb' 0 16) else .space (w.extractLsb' 0 16)

/-- Format FRAME32 (R44): bits 31:24 are `REMOTE_ID`, bits 23:16 the command, bits 15:0 `DEVICE_ID`. A word with another
`r` or `d` is never produced (R50), so it is the word of no operation. DESIGN CHOICE, safe: log 9. -/
def decodeFrame32 (k : Config) (w : FrameWord) : Except Reject Instr :=
  if w.extractLsb' 24 8 ≠ k.remoteId then .error .otherRemoteId
  else if w.extractLsb' 0 16 ≠ k.deviceId then .error .otherDeviceId
  else .ok (.assemble (w.extractLsb' 16 8) (w.extractLsb' 0 16))

/-- Format WIRE1 (R46): 1 selects `BIT1`, 0 selects `BIT0`. -/
def decodeWire1 (b : BitVec 1) : Instr := if b = 1#1 then .bit1 else .bit0

def decodeBench (k : Config) : BenchWord → Except Reject Instr
  | .seg17 w => .ok (decodeSeg17 w)
  | .frame32 w => decodeFrame32 k w
  | .wire1 b => .ok (decodeWire1 b)
  | .shift => .ok .shift
  | .leader => .ok .leader
  | .stop => .ok .stop

/-- The decoder: one operation or a named rejection for every word. -/
def decode (k : Config) : CodeWord → Except Reject Instr
  | .cmd8 c => .ok (decodeCmd8 k c)
  | .bench w => decodeBench k w

/-- The command code an operation puts on the `cmd` port (R42, R52), where it is one a caller can issue. -/
def Instr.command? (k : Config) : Instr → Option Cmd
  | .send c => some c
  | .menu => some k.cmdMenu
  | .play => some k.cmdPlay
  | .left => some k.cmdLeft
  | .right => some k.cmdRight
  | .up => some k.cmdUp
  | .down => some k.cmdDown
  | .burst _ | .space _ | .assemble _ _ | .shift | .bit1 | .bit0 | .leader | .stop => none

/-- The SEG17 word of a segment (R48). -/
def Seg.word : Seg → SegWord
  | .burst t => 1#1 ++ t
  | .space t => 0#1 ++ t

/-- The FRAME32 word with the given command and device field (R44, R45: concatenation). -/
def frame32 (k : Config) (c : Cmd) (d : BitVec 16) : FrameWord := k.remoteId ++ c ++ d

/-- The encoder: the word of an operation, or its name where it has no encoding. -/
def encode (k : Config) : Instr → CodeWord
  | .send c => .cmd8 c
  | .menu => .cmd8 k.cmdMenu
  | .play => .cmd8 k.cmdPlay
  | .left => .cmd8 k.cmdLeft
  | .right => .cmd8 k.cmdRight
  | .up => .cmd8 k.cmdUp
  | .down => .cmd8 k.cmdDown
  | .burst t => .bench (.seg17 (Seg.burst t).word)
  | .space t => .bench (.seg17 (Seg.space t).word)
  | .assemble c d => .bench (.frame32 (frame32 k c d))
  | .shift => .bench .shift
  | .bit1 => .bench (.wire1 1#1)
  | .bit0 => .bench (.wire1 0#1)
  | .leader => .bench .leader
  | .stop => .bench .stop

/-- The width and the bits of a word as one number (bit 0 least significant, R4); none for a word without bits. -/
def CodeWord.number : CodeWord → Option (Nat × Nat)
  | .cmd8 c => some (8, c.toNat)
  | .bench (.seg17 w) => some (17, w.toNat)
  | .bench (.frame32 w) => some (32, w.toNat)
  | .bench (.wire1 b) => some (1, b.toNat)
  | .bench .shift | .bench .leader | .bench .stop => none

/-- The word that the number w of nbits bits stands for. The number of bits names the format; a SEG17 word may be
given as 17 bits or in three whole bytes. In one whole byte stands a CMD8 word, every one of which is a command (R43),
so a WIRE1 symbol is given as 1 bit. DESIGN CHOICE, safe: log 8. -/
def layOut (nbits w : Nat) : Except Reject CodeWord :=
  if nbits = 8 then
    if w < 2 ^ 8 then .ok (.cmd8 (BitVec.ofNat 8 w)) else .error .strayBits
  else if nbits = 17 ∨ nbits = 24 then
    if w < 2 ^ 17 then .ok (.bench (.seg17 (BitVec.ofNat 17 w))) else .error .strayBits
  else if nbits = 32 then
    if w < 2 ^ 32 then .ok (.bench (.frame32 (BitVec.ofNat 32 w))) else .error .strayBits
  else if nbits = 1 then
    if w < 2 then .ok (.bench (.wire1 (BitVec.ofNat 1 w))) else .error .strayBits
  else .error .noSuchFormat

/-- The operation the decoder reads from the number w of nbits bits, or why there is none. -/
def decodeNumber (k : Config) (nbits w : Nat) : Except Reject Instr :=
  match layOut nbits w with
  | .ok cw => decode k cw
  | .error e => .error e

/-- The host's view of the decoder: `decodeNumber` under the record `cfg`, without the reason. -/
def decodeTableWord (nbits w : Nat) : Option Instr :=
  match decodeNumber cfg nbits w with
  | .ok i => some i
  | .error _ => none

end Sys2Proof
end

