-- ==== Sys2Proof/Machine/State.lean ====
section
/-! DEFINITION. The state: the block's seven registers (10_state.md R10), and, because the host's step takes a state
only, what the outside world still has to put on the ports and on the bench. Plain data throughout. -/

namespace Sys2Proof.Machine

/-- `PHASE`, the step of the fixed sequence in progress (R12); an enumeration, as D24 asks, so the unused codes 6
and 7 cannot be held. -/
inductive Phase where
  | idle
  | leadMark
  | leadSpace
  | bitMark
  | bitSpace
  | stopMark
  deriving DecidableEq, Repr

/-- The complete architectural state of the block (R10), seven registers, at the widths the spec gives them; and two
extensions, for the parameter records under which those widths are too small. -/
structure Registers where
  /-- `PHASE` (R12), owned by the timing sequencer. -/
  phase : Phase
  /-- `FRAME` (R11), owned by the frame encoder. -/
  frame : BitVec 32
  /-- `BITCNT` (R13), owned by the frame encoder. -/
  bitcnt : BitVec 6
  /-- `CREM` (R14), owned by the modulator. -/
  crem : BitVec 12
  /-- `CPH` (R15), owned by the modulator. -/
  cph : BitVec 5
  /-- `SREM` (R16), owned by the timing sequencer. -/
  srem : BitVec 16
  /-- `DONE` (R17), owned by the timing sequencer. -/
  done : Bool
  /-- The bits of the cycle count above the twelve of `CREM`: 0 under the source's values, and in every build whose counts
  fit the width R14 gives (the model's own field, log 17). -/
  cremExt : Nat := 0
  /-- The bits of the tick index above the five of `CPH`: 0 under the source's values, and in every build whose cycle fits
  the width R15 gives (the model's own field, log 17). -/
  cphExt : Nat := 0
  deriving DecidableEq, Repr

/-- The values of the registers after a tick boundary with `rst` = 1 (R24). -/
def Registers.reset : Registers where
  phase := .idle
  frame := 0
  bitcnt := 0
  crem := 0
  cph := 0
  srem := 0
  done := false

/-- One tick's values of the input ports (R20). -/
structure Ports where
  rst : Bool
  start : Bool
  cmd : Cmd
  deriving DecidableEq, Repr

/-- The six button functions, whose lines are pseudo-operations of the script notation (R42, R52). -/
inductive Button where
  | menu
  | play
  | left
  | right
  | up
  | down
  deriving DecidableEq, Repr

/-- A line of a caller's script (R51), or raw port values for one tick (R130: the caller may drive anything). -/
inductive Line where
  /-- `RESET`. -/
  | reset
  /-- `SEND c`. -/
  | send (c : Cmd)
  /-- One of the six names. -/
  | button (b : Button)
  /-- `WAITDONE`. -/
  | waitDone
  /-- `IDLE n`. -/
  | idle (n : Nat)
  /-- `FORCE c`. -/
  | force (c : Cmd)
  /-- The ports as they stand, for one tick. -/
  | pins (p : Ports)
  deriving DecidableEq, Repr

/-- The state of the machine. -/
structure State where
  /-- The seven registers. -/
  regs : Registers
  /-- What the caller still has to do (the model's own field, log 3); with nothing left it drives quiet ports. -/
  caller : List Line
  /-- none: the block as wired, its sequencer supplying every operation. some ws: the sub-blocks on the bench, given
  the words ws (R51; the model's own field, log 5). -/
  bench : Option (List BenchWord)
  /-- How many free values have been used (the model's own field, log 12). -/
  drawn : Nat
  deriving DecidableEq, Repr

/-- The machine right after reset: the registers as R24 says; a caller with nothing to do, the block as wired, no free
value used (DESIGN CHOICE: log 3, log 5, log 12). -/
def State.reset : State where
  regs := Registers.reset
  caller := []
  bench := none
  drawn := 0

/-- The block raises no exception and has no fault outcome: "The list of exception causes is empty" (R120). So there
is no constructor; safe, since nothing is left out. -/
inductive Fault where
  deriving DecidableEq, Repr

/-- Why a step answers nothing. -/
inductive Refusal where
  /-- An operation without a meaning, raised by its arm of `exec`; safe. -/
  | notModelled (mnemonic : String)
  /-- A parameter record that breaks the constraint of R3, raised by `blockTick`; R131 asks for it; safe. -/
  | badParameters
  /-- Registers that no run from reset reaches, in a tick without reset, raised by `blockTick` and `benchStep`: R131,
  R139 and U13 ask for it; safe. -/
  | unreachableState
  /-- A bench word that is no operation, raised by `issue`; safe. -/
  | noSuchWord (why : Reject)
  deriving DecidableEq, Repr

end Sys2Proof.Machine
end

