-- ==== Sys2Proof/Machine/Operands.lean ====
section
/-! DEFINITION. The operand forms: the phase of the sequencer, the requested duration of a segment (R49, R61, R63), the
command and frame operands (R44, R45), and the data bit (R79). -/

namespace Sys2Proof.Machine

/-- R12's numeric code of a phase. -/
def Phase.code : Phase → BitVec 3
  | .idle => 0
  | .leadMark => 1
  | .leadSpace => 2
  | .bitMark => 3
  | .bitSpace => 4
  | .stopMark => 5

/-- The mark phases (R12). -/
def Phase.isMark : Phase → Bool
  | .leadMark | .bitMark | .stopMark => true
  | .idle | .leadSpace | .bitSpace => false

/-- The space phases (R12). -/
def Phase.isSpace : Phase → Bool
  | .leadSpace | .bitSpace => true
  | .idle | .leadMark | .bitMark | .stopMark => false

/-- N(d), the number of whole carrier cycles of a burst of requested duration d (R61), without wrap-around (D9). -/
def cycles (k : Config) (d : Nat) : Nat := ceilDiv d k.tCycle

/-- E(d), the ticks a burst of requested duration d occupies (R63). -/
def burstTicks (k : Config) (d : Nat) : Nat := k.tCycle * cycles k d

/-- The cycles of the burst that have not finished: `CREM` (R14), with its extension (log 17). -/
def cyclesLeft (r : Registers) : Nat := r.crem.toNat + 2 ^ 12 * r.cremExt

/-- The index of the tick inside its carrier cycle: `CPH` (R15), with its extension (log 17). -/
def tickIndex (r : Registers) : Nat := r.cph.toNat + 2 ^ 5 * r.cphExt

/-- The frame word built from a command and a device identifier (R45, R76, R77: each field widened to 32 bits before
the shift). -/
def frameOf (k : Config) (c : Cmd) (d : BitVec 16) : FrameWord :=
  ((k.remoteId.setWidth 32) <<< 24) ||| ((c.setWidth 32) <<< 16) ||| (d.setWidth 32)

/-- The frame the block assembles for the command c: no other `r` and `d` than the record's (R50, R76). -/
def assembled (k : Config) (c : Cmd) : FrameWord := frameOf k c k.deviceId

/-- The current data bit `FRAME[0]` (R79). -/
def currentBit (r : Registers) : Bool := r.frame.getLsbD 0

/-- The requested duration of the space after the mark of a data bit (R46, R94): the short one after a 1. -/
def bitSpaceOf (k : Config) (b : Bool) : Nat := if b then k.tOneSpace else k.tZeroSpace

/-- The command code of a button function (R42). -/
def codeOf (k : Config) : Button → Cmd
  | .menu => k.cmdMenu
  | .play => k.cmdPlay
  | .left => k.cmdLeft
  | .right => k.cmdRight
  | .up => k.cmdUp
  | .down => k.cmdDown

/-- The ports of a caller that asks for nothing; the value of `cmd` is without effect then (U15). -/
def Ports.quiet : Ports := { rst := false, start := false, cmd := 0 }

/-- The ports of a caller that presents the command c (R41). -/
def Ports.present (c : Cmd) : Ports := { rst := false, start := true, cmd := c }

/-- The ports of a caller that asserts reset (R135). -/
def Ports.assertReset : Ports := { rst := true, start := false, cmd := 0 }

end Sys2Proof.Machine
end

