-- ==== Sys2Proof/Machine/Caller.lean ====
section
/-! DEFINITION. The caller (R130): what a script puts on the input ports in one tick, from its lines and the value of
`busy` in that tick (R51, R52). -/

namespace Sys2Proof.Machine

/-- The ports of this tick and the lines left after it, the six names standing for the codes of k. A WAITDONE that sees `busy` = 0, and an IDLE of no ticks, use no
tick: the next line drives (DESIGN CHOICE, safe: log 4). -/
def drive (k : Config) : List Line → Bool → Ports × List Line
  | [], _ => (Ports.quiet, [])
  | .reset :: ls, _ => (Ports.assertReset, ls)
  | .send c :: ls, b => if b then (Ports.quiet, .send c :: ls) else (Ports.present c, ls)
  | .button x :: ls, b => if b then (Ports.quiet, .button x :: ls) else (Ports.present (codeOf k x), ls)
  | .waitDone :: ls, b => if b then (Ports.quiet, .waitDone :: ls) else drive k ls b
  | .idle 0 :: ls, b => drive k ls b
  | .idle (n + 1) :: ls, _ => (Ports.quiet, .idle n :: ls)
  | .force c :: ls, _ => (Ports.present c, ls)
  | .pins p :: ls, _ => (p, ls)

end Sys2Proof.Machine
end

