-- ==== Sys2Proof/Machine/Flags.lean ====
section
/-! DEFINITION. The flags and outputs, functions of the registers alone (R6: a Moore machine). There are no arithmetic
condition codes (10_state.md section 2). `DONE` is set by R96 and cleared by R97, both in Machine/Sequencer.lean. -/

namespace Sys2Proof.Machine

/-- The output `busy` (R18). -/
def busy (r : Registers) : Bool := r.phase != .idle

/-- The output `done` (R17). -/
def doneOut (r : Registers) : Bool := r.done

/-- The output `ir_out` (R21). -/
def irOut (k : Config) (r : Registers) : Bool := r.phase.isMark && decide (tickIndex r < k.tHigh)

/-- The lowering of `DONE` that every step taken in `IDLE` does (R17, R97). -/
def lowerDone (r : Registers) : Registers := { r with done := false }

end Sys2Proof.Machine
end

