-- ==== Sys2Proof/Machine/Ops.lean ====
section
/-! DEFINITION. The shared operations on the registers, one per act of a sub-block (10_state.md R26), and the updates of
State. There is no operation over memory (R30: the block has none) and none that takes an exception or returns from
one (R120, R125, R126: there are none). Every operation reads the registers it is given and writes all at once (R7). -/

namespace Sys2Proof.Machine

/-- The cycle count n in `CREM` and, of a count its twelve bits cannot hold, the rest in the extension: no count wraps (R61,
R144). DESIGN CHOICE, safe: log 17. -/
def setCycles (n : Nat) (r : Registers) : Registers := { r with crem := BitVec.ofNat 12 n, cremExt := n / 2 ^ 12 }

/-- The tick index n in `CPH` and, of an index its five bits cannot hold, the rest in the extension: no index wraps (R66).
DESIGN CHOICE, safe: log 17. -/
def setIndex (n : Nat) (r : Registers) : Registers := { r with cph := BitVec.ofNat 5 n, cphExt := n / 2 ^ 5 }

/-- Start of a burst of requested duration d in the mark phase p (R65). -/
def enterMark (k : Config) (p : Phase) (d : Nat) (r : Registers) : Registers :=
  setCycles (cycles k d) (setIndex 0 { r with phase := p, srem := 0 })

/-- Entry to a space of requested duration d in the space phase p (R87). -/
def enterSpace (p : Phase) (d : Nat) (r : Registers) : Registers :=
  setCycles 0 (setIndex 0 { r with phase := p, srem := BitVec.ofNat 16 d })

/-- No segment in progress: `PHASE` idle, the three counters 0 (R23, R96 without its `DONE`). -/
def leaveSegment (r : Registers) : Registers := setCycles 0 (setIndex 0 { r with phase := .idle, srem := 0 })

/-- ASSEMBLE (R76). -/
def assemble (k : Config) (c : Cmd) (r : Registers) : Registers := { r with frame := assembled k c, bitcnt := 32 }

/-- SHIFT (R80). -/
def shift (r : Registers) : Registers := { r with frame := r.frame >>> 1, bitcnt := r.bitcnt - 1 }

/-- The last tick of a burst: R66's third arm, neither inside a cycle nor at the end of a cycle that is not the last. -/
def lastBurstTick (k : Config) (r : Registers) : Bool := !(tickIndex r < k.tCycle - 1) && !(1 < cyclesLeft r)

/-- The first two arms of R66: a tick of a burst that is not its last. -/
def countBurst (k : Config) (r : Registers) : Registers :=
  if tickIndex r < k.tCycle - 1 then setIndex (tickIndex r + 1) r else setCycles (cyclesLeft r - 1) (setIndex 0 r)

/-- The last tick of a space (R87). -/
def lastSpaceTick (r : Registers) : Bool := !(1 < r.srem.toNat)

/-- R87's first arm: a tick of a space that is not its last. -/
def countSpace (r : Registers) : Registers := { r with srem := r.srem - 1 }

/-- A segment is in progress and this is not its last tick. -/
def running (k : Config) (r : Registers) : Bool :=
  match r.phase with
  | .idle => false
  | .leadMark | .bitMark | .stopMark => !lastBurstTick k r
  | .leadSpace | .bitSpace => !lastSpaceTick r

/-- A tick of a segment that is not its last (R66, R87). -/
def countOn (k : Config) (r : Registers) : Registers :=
  match r.phase with
  | .idle => r
  | .leadMark | .bitMark | .stopMark => countBurst k r
  | .leadSpace | .bitSpace => countSpace r

/-- The mark phase a burst enters that the sequencer did not choose: R89's edge from the phase in progress where it has
one (after a SHIFT, so with `BITCNT` 0 once the last bit is done), else the mark phase in progress.
DESIGN CHOICE, safe: log 6. -/
def markAfter (r : Registers) : Phase :=
  match r.phase with
  | .idle | .leadMark => .leadMark
  | .leadSpace | .bitMark => .bitMark
  | .bitSpace => if r.bitcnt = 0 then .stopMark else .bitMark
  | .stopMark => .stopMark

/-- The space phase a space enters that the sequencer did not choose. DESIGN CHOICE, safe: log 6. -/
def spaceAfter (r : Registers) : Phase :=
  match r.phase with
  | .idle | .leadMark | .leadSpace => .leadSpace
  | .bitMark | .bitSpace | .stopMark => .bitSpace

/-- The registers changed by f, the outside world untouched. -/
def State.onRegs (f : Registers → Registers) (s : State) : State := { s with regs := f s.regs }

/-- The words still to come on the bench. -/
def State.pending (s : State) : List BenchWord := s.bench.getD []

/-- The sub-blocks on the bench (log 5), their sequencer no longer supplying operations. -/
def State.onBench (s : State) : State := { s with bench := some s.pending }

/-- The word w put in front of the words still to come on the bench. -/
def State.push (w : BenchWord) (s : State) : State := { s with bench := some (w :: s.pending) }

/-- A burst on the bench: nothing at all for duration 0 (R64), else its start (R65). -/
def beginBurst (k : Config) (d : Nat) (s : State) : State :=
  if d = 0 then s else (s.onRegs (enterMark k (markAfter s.regs) d)).onBench

/-- A space on the bench: nothing at all for duration 0 (R87, D20), else its start. -/
def beginSpace (d : Nat) (s : State) : State :=
  if d = 0 then s else (s.onRegs (enterSpace (spaceAfter s.regs) d)).onBench

/-- A burst and then a space, two of R46's symbols: the burst starts, its space is the next word. -/
def beginSymbol (k : Config) (mark space : Nat) (s : State) : State :=
  beginBurst k mark (s.push (.seg17 (Seg.space (BitVec.ofNat 16 space)).word))

end Sys2Proof.Machine
end

