-- ==== Sys2Proof/Machine/Legal.lean ====
section
/-! DEFINITION. The registers a run from reset can hold: 10_state.md R25 for the block as wired, and the part of R25
about the counters for the sub-blocks on the bench. A step in any other registers is refused (R131, R139, U13; log 10). -/

namespace Sys2Proof.Machine

/-- The largest burst cycle count of the frame sequence (R25, last sentence). -/
def maxCycles (k : Config) : Nat :=
  max (cycles k k.tLeadMark) (max (cycles k k.tBitMark) (cycles k k.tStopMark))

/-- The largest space duration of the frame sequence (R25, last sentence). -/
def maxSpace (k : Config) : Nat := max k.tLeadSpace (max k.tOneSpace k.tZeroSpace)

/-- R25 (b) with the bound n on the cycle count. -/
def markOk (k : Config) (n : Nat) (r : Registers) : Bool :=
  decide (1 ≤ cyclesLeft r) && decide (cyclesLeft r ≤ n) && decide (tickIndex r < k.tCycle) && r.srem == 0

/-- No burst in progress: `CREM`, `CPH` and their extensions are 0 (R23). -/
def noBurst (r : Registers) : Bool := r.crem == 0 && r.cph == 0 && r.cremExt == 0 && r.cphExt == 0

/-- R25 (c) with the bound n on `SREM`. -/
def spaceOk (n : Nat) (r : Registers) : Bool :=
  decide (1 ≤ r.srem.toNat) && decide (r.srem.toNat ≤ n) && noBurst r

/-- `FRAME` is the assembled frame of some command, shifted right n times (R25 d, e): outside the command's bits it is
the frame of command 0, and the command's bits may be anything. -/
def frameOk (k : Config) (n : Nat) (r : Registers) : Bool :=
  (r.frame &&& ~~~((0x00FF0000#32) >>> n)) == (assembled k 0) >>> n

/-- R25 (a) to (h). -/
def legal (k : Config) (r : Registers) : Bool :=
  (!r.done || r.phase == .idle) &&
  match r.phase with
  | .idle => r.frame == 0 && r.bitcnt == 0 && noBurst r && r.srem == 0
  | .leadMark => markOk k (maxCycles k) r && r.bitcnt == 32 && frameOk k 0 r
  | .leadSpace => spaceOk (maxSpace k) r && r.bitcnt == 32 && frameOk k 0 r
  | .bitMark =>
    markOk k (maxCycles k) r && decide (1 ≤ r.bitcnt.toNat) && decide (r.bitcnt.toNat ≤ 32)
      && frameOk k (32 - r.bitcnt.toNat) r
  | .bitSpace =>
    spaceOk (maxSpace k) r && decide (1 ≤ r.bitcnt.toNat) && decide (r.bitcnt.toNat ≤ 32)
      && frameOk k (32 - r.bitcnt.toNat) r
  | .stopMark => markOk k (maxCycles k) r && r.bitcnt == 0 && r.frame == 0

/-- On the bench any segment word may come (R48), so the bounds are those of the longest operands; `FRAME` and `BITCNT`
are as the words left them. -/
def benchLegal (k : Config) (r : Registers) : Bool :=
  (!r.done || r.phase == .idle) &&
  match r.phase with
  | .idle => noBurst r && r.srem == 0
  | .leadMark | .bitMark | .stopMark => markOk k (cycles k 65535) r
  | .leadSpace | .bitSpace => spaceOk 65535 r

end Sys2Proof.Machine
end

