-- ==== Sys2Proof/Machine/Sequencer.lean ====
section
/-! DEFINITION. The timing sequencer (42_timing_sequencer.md): the phase machine, tick by tick, and the operations
SEND, SPACE and the wire symbols. -/

namespace Sys2Proof.Machine

/-- Acceptance of the command c (R90): ASSEMBLE c, the leader burst, `DONE` lowered. -/
def accept (k : Config) (c : Cmd) (r : Registers) : Registers :=
  lowerDone (enterMark k .leadMark k.tLeadMark (assemble k c r))

/-- End of the leader mark (R91). -/
def endLeadMark (k : Config) (r : Registers) : Registers := enterSpace .leadSpace k.tLeadSpace r

/-- End of the leader space (R92). -/
def endLeadSpace (k : Config) (r : Registers) : Registers := enterMark k .bitMark k.tBitMark r

/-- End of a data bit's mark (R94). -/
def endBitMark (k : Config) (r : Registers) : Registers := enterSpace .bitSpace (bitSpaceOf k (currentBit r)) r

/-- End of a data bit's space (R95): SHIFT, and the next bit or the stop burst by `BITCNT` before the decrement. -/
def endBitSpace (k : Config) (r : Registers) : Registers :=
  if 1 < r.bitcnt.toNat then enterMark k .bitMark k.tBitMark (shift r)
  else enterMark k .stopMark k.tStopMark (shift r)

/-- End of the stop mark (R96). -/
def endStopMark (r : Registers) : Registers := { leaveSegment r with done := true }

/-- The block's step function (42_timing_sequencer.md section 4): total, one next value of the registers for every
value and every input (R120); the inputs are examined in the order of R124. -/
def tick (k : Config) (io : Ports) (r : Registers) : Registers :=
  if io.rst then Registers.reset
  else
    match r.phase with
    | .idle => if io.start then accept k io.cmd r else lowerDone r
    | .leadMark => if lastBurstTick k r then endLeadMark k r else countBurst k r
    | .leadSpace => if lastSpaceTick r then endLeadSpace k r else countSpace r
    | .bitMark => if lastBurstTick k r then endBitMark k r else countBurst k r
    | .bitSpace => if lastSpaceTick r then endBitSpace k r else countSpace r
    | .stopMark => if lastBurstTick k r then endStopMark r else countBurst k r

/-- One tick of the wired block with the port values io. Refused for a parameter record R3 rules out, and, without
reset, for registers no run from reset holds (R131, R139; log 10, log 11). Reset takes every register to its value
whatever it held (R135) and puts the sub-blocks back into the block. -/
def blockTick (k : Config) (io : Ports) (s : State) : Host.Outcome State Fault Refusal :=
  if !k.valid then .refused .badParameters
  else if io.rst then .next { s with regs := tick k io s.regs, bench := none }
  else if legal k s.regs then .next (s.onRegs (tick k io))
  else .refused .unreachableState

/-- `SEND c` in a block built with k (R85): the tick in which the command c is presented; accepted in `IDLE` (R90), dropped while a
transmission runs, which goes on by one tick (R93). The tick boundaries after it carry the frame out (R91 to R96). -/
def sendIn (k : Config) (c : Cmd) (s : State) : Host.Outcome State Fault Refusal := blockTick k (Ports.present c) s

/-- `SEND c` (R85). -/
def execSend (c : Cmd) (s : State) : Host.Outcome State Fault Refusal := sendIn cfg c s

/-- `SPACE t` (R87): the start of t ticks of low line, the following steps counting it down; nothing for t = 0. -/
def execSpace (t : Dur) (s : State) : Host.Outcome State Fault Refusal := .next (beginSpace t.toNat s)

/-- `LEADER` in a block built with k (R46): the leader burst, then the leader space. -/
def leaderIn (k : Config) (s : State) : Host.Outcome State Fault Refusal :=
  .next (beginSymbol k k.tLeadMark k.tLeadSpace s)

/-- `LEADER` (R46): `BURST 9000`, `SPACE 4500`. -/
def execLeader (s : State) : Host.Outcome State Fault Refusal := leaderIn cfg s

/-- `BIT1` in a block built with k (R46): the bit burst, then the SHORT space. -/
def bit1In (k : Config) (s : State) : Host.Outcome State Fault Refusal :=
  .next (beginSymbol k k.tBitMark (bitSpaceOf k true) s)

/-- `BIT1` (R46): `BURST 560`, `SPACE 565`. -/
def execBit1 (s : State) : Host.Outcome State Fault Refusal := bit1In cfg s

/-- `BIT0` in a block built with k (R46): the bit burst, then the LONG space. -/
def bit0In (k : Config) (s : State) : Host.Outcome State Fault Refusal :=
  .next (beginSymbol k k.tBitMark (bitSpaceOf k false) s)

/-- `BIT0` (R46): `BURST 560`, `SPACE 1690`. -/
def execBit0 (s : State) : Host.Outcome State Fault Refusal := bit0In cfg s

/-- `STOP` in a block built with k (R46): the stop burst, no space after it. -/
def stopIn (k : Config) (s : State) : Host.Outcome State Fault Refusal := .next (beginBurst k k.tStopMark s)

/-- `STOP` (R46): `BURST 560`. -/
def execStop (s : State) : Host.Outcome State Fault Refusal := stopIn cfg s

end Sys2Proof.Machine
end

