-- ==== Sys2Proof/Machine/Buttons.lean ====
section
/-! DEFINITION. The six button operations (43_button_operations.md R110): each is SEND with the command code that the
parameter record gives its function (R42). `menuIn k` … `downIn k` take the record, and with it the codes, as an
argument; `execMenu` … `execDown` are those of the record `cfg`. -/

namespace Sys2Proof.Machine

/-- `MENU` in a block built with k (R111). -/
def menuIn (k : Config) (s : State) : Host.Outcome State Fault Refusal := sendIn k k.cmdMenu s

/-- `MENU` (R111). -/
def execMenu (s : State) : Host.Outcome State Fault Refusal := menuIn cfg s

/-- `PLAY` in a block built with k (R112). -/
def playIn (k : Config) (s : State) : Host.Outcome State Fault Refusal := sendIn k k.cmdPlay s

/-- `PLAY` (R112). -/
def execPlay (s : State) : Host.Outcome State Fault Refusal := playIn cfg s

/-- `LEFT` in a block built with k (R113). -/
def leftIn (k : Config) (s : State) : Host.Outcome State Fault Refusal := sendIn k k.cmdLeft s

/-- `LEFT` (R113). -/
def execLeft (s : State) : Host.Outcome State Fault Refusal := leftIn cfg s

/-- `RIGHT` in a block built with k (R114). -/
def rightIn (k : Config) (s : State) : Host.Outcome State Fault Refusal := sendIn k k.cmdRight s

/-- `RIGHT` (R114). -/
def execRight (s : State) : Host.Outcome State Fault Refusal := rightIn cfg s

/-- `UP` in a block built with k (R115). -/
def upIn (k : Config) (s : State) : Host.Outcome State Fault Refusal := sendIn k k.cmdUp s

/-- `UP` (R115). -/
def execUp (s : State) : Host.Outcome State Fault Refusal := upIn cfg s

/-- `DOWN` in a block built with k (R116). -/
def downIn (k : Config) (s : State) : Host.Outcome State Fault Refusal := sendIn k k.cmdDown s

/-- `DOWN` (R116). -/
def execDown (s : State) : Host.Outcome State Fault Refusal := downIn cfg s

end Sys2Proof.Machine
end

