-- ==== Sys2Proof/Machine/Encoder.lean ====
section
/-! DEFINITION. The frame encoder's operations (41_frame_encoder.md), each taking effect at one tick boundary (R75). -/

namespace Sys2Proof.Machine

/-- `ASSEMBLE c` in a block built with k (R76): `FRAME` is the word of R44 with the command c and the record's
`REMOTE_ID` and `DEVICE_ID`, and no other (R50); `BITCNT` is 32. -/
def assembleIn (k : Config) (c : Cmd) (s : State) : Host.Outcome State Fault Refusal := .next (s.onRegs (assemble k c))

/-- `ASSEMBLE c` (R76). The field d of its word is the constant `DEVICE_ID` (R44) and is not looked at: whatever stands
there, no frame with another device identifier is produced (R50). -/
def execAssemble (c : Cmd) (_ : BitVec 16) (s : State) : Host.Outcome State Fault Refusal := assembleIn cfg c s

/-- `SHIFT` (R80). The block issues it with `BITCNT` at least 1 only; at `BITCNT` = 0 the spec states no value for
`BITCNT`, which is then a free value (DESIGN CHOICE, safe: log 12), and `FRAME` is shifted as ever. -/
def execShift (s : State) : Host.Outcome State Fault Refusal :=
  if s.regs.bitcnt = 0 then
    .next { s with
      regs := { shift s.regs with bitcnt := Config.freeBitcnt s.drawn }
      drawn := s.drawn + 1 }
  else .next (s.onRegs shift)

end Sys2Proof.Machine
end

