-- ==== Sys2Proof/Machine/Modulator.lean ====
section
/-! DEFINITION. The carrier burst generator's operation (40_carrier_modulator.md). Its per-tick rule R66 is `countBurst`
and `lastBurstTick` of Machine/Ops.lean; its output is `irOut` of Machine/Flags.lean. -/

namespace Sys2Proof.Machine

/-- `BURST t` in a block built with k (R60, R64, R65): the start of a burst of ceil_div(t, `T_CYCLE`) carrier cycles, the
following steps counting it down by R66; nothing at all for t = 0. -/
def burstIn (k : Config) (t : Dur) (s : State) : Host.Outcome State Fault Refusal := .next (beginBurst k t.toNat s)

/-- `BURST t` (R60). -/
def execBurst (t : Dur) (s : State) : Host.Outcome State Fault Refusal := burstIn cfg t s

end Sys2Proof.Machine
end

