-- ==== Sys2Proof/Machine/Record.lean ====
section
/-! DEFINITION. The operations as functions of the parameter record the block is built with, which R19 and R42 ask a
model to take as an argument and not as state. `exec` (Machine/Dispatch.lean) is `execIn cfg`. -/

namespace Sys2Proof.Machine

/-- The meaning of an operation in a block built with k. -/
def execIn (k : Config) (i : Instr) (s : State) : Host.Outcome State Fault Refusal :=
  match i with
  | .send c => sendIn k c s
  | .menu => menuIn k s
  | .play => playIn k s
  | .left => leftIn k s
  | .right => rightIn k s
  | .up => upIn k s
  | .down => downIn k s
  | .burst t => burstIn k t s
  | .space t => execSpace t s
  | .assemble c _ => assembleIn k c s
  | .shift => execShift s
  | .bit1 => bit1In k s
  | .bit0 => bit0In k s
  | .leader => leaderIn k s
  | .stop => stopIn k s

end Sys2Proof.Machine
end

