-- ==== Sys2Proof/Machine/Bench.lean ====
section
/-! DEFINITION. Where an operation comes from: the `cmd` port, or the words on the bench (R51, last paragraph: "each
starting at the tick its predecessor ends"). All of it is a function of the record k the block is built with. -/

namespace Sys2Proof.Machine

/-- The operation starts a segment, so that the tick boundary at which it is issued is used up. ASSEMBLE, SHIFT and an
empty segment take no time of their own (R64, R75). -/
def takesTime : Instr → Bool
  | .burst t | .space t => t != 0
  | .bit1 | .bit0 | .leader | .stop => true
  | .assemble _ _ | .shift => false
  | .send _ | .menu | .play | .left | .right | .up | .down => true

/-- A tick boundary on the bench at which no segment goes on: the words are run in order until one starts a segment;
with none left the line stays low with no segment in progress (log 7). -/
def issue (k : Config) : List BenchWord → State → Host.Outcome State Fault Refusal
  | [], s => .next { s.onRegs leaveSegment with bench := some [] }
  | w :: ws, s =>
    match decodeBench k w with
    | .error why => .refused (.noSuchWord why)
    | .ok i =>
      match execIn k i { s with bench := some ws } with
      | .next s' => if takesTime i then .next s' else issue k ws s'
      | .fault f => .fault f
      | .refused why => .refused why

/-- `DONE` is lowered by a step taken in `IDLE` (R17, R97), on the bench too. -/
def lowerIfIdle (r : Registers) : Registers := if r.phase = .idle then lowerDone r else r

/-- One tick on the bench, without reset: the segment in progress counts on (R66, R87), or the next words are run. -/
def benchStep (k : Config) (ws : List BenchWord) (s : State) : Host.Outcome State Fault Refusal :=
  if !k.valid then .refused .badParameters
  else if !benchLegal k s.regs then .refused .unreachableState
  else if running k s.regs then .next (s.onRegs (countOn k))
  else issue k ws (s.onRegs lowerIfIdle)

/-- One tick with the port values io. In the block as wired a command on the ports is the operation it decodes to
(R41); on the bench `start` and `cmd` reach nothing. Reset comes first in both (R124, R70). -/
def stepWith (k : Config) (io : Ports) (s : State) : Host.Outcome State Fault Refusal :=
  if io.rst then blockTick k io s
  else
    match s.bench with
    | none => if io.start then execIn k (decodeCmd8 k io.cmd) s else blockTick k io s
    | some ws => benchStep k ws s

/-- The values of the input ports in this tick: what the caller drives, seeing this tick's `busy`, where the six names
stand for the codes of k. -/
def State.portsIn (k : Config) (s : State) : Ports := (drive k s.caller (busy s.regs)).1

/-- What the caller still has to do after this tick. -/
def State.restIn (k : Config) (s : State) : List Line := (drive k s.caller (busy s.regs)).2

/-- The ports of this tick where the six names stand for the codes of `cfg`. -/
abbrev State.ports (s : State) : Ports := s.portsIn cfg

/-- What the caller still has to do after this tick, in the build `cfg`. -/
abbrev State.rest (s : State) : List Line := s.restIn cfg

/-- One tick of caller and block. -/
def stepTick (k : Config) (s : State) : Host.Outcome State Fault Refusal :=
  stepWith k (s.portsIn k) { s with caller := s.restIn k }

/-- s with the word placed where its next step takes an operation from: a command word on the ports in this tick, a
bench word as the only word on the bench, with no segment going on and quiet ports in this tick. -/
def placeWord (k : Config) : CodeWord → State → State
  | .cmd8 c, s => { s with caller := .force c :: s.caller, bench := none }
  | .bench w, s =>
    { s with
      caller := .pins Ports.quiet :: s.caller
      bench := some [w]
      regs := if running k s.regs then leaveSegment s.regs else s.regs }

/-- `placeWord` for a number of nbits bits; s itself where the number is no word. -/
def placeNumber (k : Config) (nbits w : Nat) (s : State) : State :=
  match layOut nbits w with
  | .ok cw => placeWord k cw s
  | .error _ => s

end Sys2Proof.Machine
end

