-- ==== Sys2Proof/Machine/Dispatch.lean ====
section
/-! DEFINITION. One arm per operation. -/

namespace Sys2Proof.Machine

def exec (i : Instr) (s : State) : Host.Outcome State Fault Refusal :=
  match i with
  | .send c => Sys2Proof.Machine.execSend c s
  | .menu => Sys2Proof.Machine.execMenu s
  | .play => Sys2Proof.Machine.execPlay s
  | .left => Sys2Proof.Machine.execLeft s
  | .right => Sys2Proof.Machine.execRight s
  | .up => Sys2Proof.Machine.execUp s
  | .down => Sys2Proof.Machine.execDown s
  | .burst t => Sys2Proof.Machine.execBurst t s
  | .space t => Sys2Proof.Machine.execSpace t s
  | .assemble c d => Sys2Proof.Machine.execAssemble c d s
  | .shift => Sys2Proof.Machine.execShift s
  | .bit1 => Sys2Proof.Machine.execBit1 s
  | .bit0 => Sys2Proof.Machine.execBit0 s
  | .leader => Sys2Proof.Machine.execLeader s
  | .stop => Sys2Proof.Machine.execStop s

end Sys2Proof.Machine
end

