-- ==== Sys2Proof/Machine/Step.lean ====
section
/-! DEFINITION. The step of the machine: one tick of one microsecond (R6, D1), of a block built with the record `cfg`.
For any record k it is `stepTick k`. -/

namespace Sys2Proof.Machine

/-- One step: the caller sets the ports of this tick, then the tick boundary. -/
def step (s : State) : Host.Outcome State Fault Refusal := stepTick cfg s

/-- s with the word where its next step takes an operation from (log 16). -/
def State.withFetchWord (s : State) (nbits w : Nat) : State := placeNumber cfg nbits w s

end Sys2Proof.Machine
end

