-- ==== Sys2Proof/Machine/Views.lean ====
section
/-! DEFINITION. The three views of 00_scope.md R8 that are not the register trace: the segment list (R86), the waveform
(R62, R87), the counts and durations (R98 to R100), and the reference decoder of D21, an oracle for claims only. -/

namespace Sys2Proof.Machine

/-- A waveform, one level per tick (R6). -/
abbrev Wave := List Bool

/-- One carrier cycle: `T_HIGH` ticks of 1, then `T_LOW` ticks of 0 (R62). -/
def carrierCycle (k : Config) : Wave := List.replicate k.tHigh true ++ List.replicate k.tLow false

/-- `burst(d)` (R62). -/
def burstWave (k : Config) (d : Nat) : Wave := (List.replicate (cycles k d) (carrierCycle k)).flatten

/-- `space(d)` (R87). -/
def spaceWave (d : Nat) : Wave := List.replicate d false

/-- The waveform of a segment. -/
def segWave (k : Config) : Seg → Wave
  | .burst t => burstWave k t.toNat
  | .space t => spaceWave t.toNat

/-- The requested duration of a segment. -/
def requested : Seg → Nat
  | .burst t | .space t => t.toNat

/-- The emitted duration of a segment (R63, R87). -/
def emitted (k : Config) : Seg → Nat
  | .burst t => burstTicks k t.toNat
  | .space t => t.toNat

/-- A burst of a configured duration. -/
def burstSeg (d : Nat) : Seg := .burst (BitVec.ofNat 16 d)

/-- A space of a configured duration. -/
def spaceSeg (d : Nat) : Seg := .space (BitVec.ofNat 16 d)

/-- The wire symbol of a data bit (R46). -/
def bitSymbol (k : Config) (b : Bool) : List Seg := [burstSeg k.tBitMark, spaceSeg (bitSpaceOf k b)]

/-- The wire symbol LEADER (R46). -/
def leaderSymbol (k : Config) : List Seg := [burstSeg k.tLeadMark, spaceSeg k.tLeadSpace]

/-- The wire symbol STOP (R46). -/
def stopSymbol (k : Config) : List Seg := [burstSeg k.tStopMark]

/-- The data bits of a frame in the order of transmission: bit i is the i-th (R31, R47). -/
def frameBits (f : FrameWord) : List Bool := (List.range 32).map f.getLsbD

/-- `seg(c)` (R86): LEADER, 32 data symbols, STOP. -/
def segList (k : Config) (c : Cmd) : List Seg :=
  leaderSymbol k ++ (frameBits (assembled k c)).flatMap (bitSymbol k) ++ stopSymbol k

/-- `wave(c)` (R86). -/
def wave (k : Config) (c : Cmd) : Wave := (segList k c).flatMap (segWave k)

/-- n1, the number of data bits equal to 1 (R99). -/
def ones (k : Config) (c : Cmd) : Nat := (frameBits (assembled k c)).count true

/-- `T_nominal(c)` (R99): the sum of the requested durations. -/
def tNominal (k : Config) (c : Cmd) : Nat := ((segList k c).map requested).sum

/-- `T_emitted(c)` (R100): the sum of the emitted durations. -/
def tEmitted (k : Config) (c : Cmd) : Nat := ((segList k c).map (emitted k)).sum

/-- The number of rising edges of a waveform that starts from a line at the level given. -/
def risingEdges : Bool → Wave → Nat
  | _, [] => 0
  | prev, b :: bs => (if !prev && b then 1 else 0) + risingEdges b bs

/-- The data bit a segment list's space stands for, in the reference decoder (D21). -/
def bitOfSpace (k : Config) (d : Nat) : Option Bool :=
  if d = k.tOneSpace then some true else if d = k.tZeroSpace then some false else none

/-- The data bits of the symbols up to the stop burst, in the reference decoder (D21). -/
def decodeSymbols (k : Config) : List Seg → Option (List Bool)
  | [.burst t] => if t.toNat = k.tStopMark then some [] else none
  | .burst t :: .space u :: rest =>
    if t.toNat = k.tBitMark then
      match bitOfSpace k u.toNat, decodeSymbols k rest with
      | some b, some bs => some (b :: bs)
      | _, _ => none
    else none
  | _ => none

/-- The number whose i-th bit is the i-th of the list. -/
def ofBits : List Bool → Nat
  | [] => 0
  | b :: bs => b.toNat + 2 * ofBits bs

/-- The reference decoder on the segment list (D21, 95_test_vectors.md 2.6): a test oracle, not part of the block. -/
def decodeSegs (k : Config) : List Seg → Option FrameWord
  | .burst t :: .space u :: rest =>
    if t.toNat = k.tLeadMark ∧ u.toNat = k.tLeadSpace then
      match decodeSymbols k rest with
      | some bs => if bs.length = 32 then some (BitVec.ofNat 32 (ofBits bs)) else none
      | none => none
    else none
  | _ => none

end Sys2Proof.Machine
end

