-- ==== Sys2Proof/Safety.lean ====
section
/-! DEFINITION. The words in which claims speak of runs: the invariant, the wire over a run, and a caller that asserts
no reset. A run is safe when no step of it refuses (R131). -/

namespace Sys2Proof.Machine

/-- The states a run from reset can be in: R25 for the block as wired, the counters' part of it on the bench. -/
def invariant (s : State) : Bool :=
  match s.bench with
  | none => legal cfg s.regs
  | some _ => benchLegal cfg s.regs

/-- Every word on the bench is an operation. -/
def benchReadable (s : State) : Bool :=
  s.pending.all fun w => match decodeBench cfg w with
    | .ok _ => true
    | .error _ => false

/-- The line asserts no reset. -/
def Line.noReset : Line → Bool
  | .reset => false
  | .pins p => !p.rst
  | .send _ | .button _ | .waitDone | .idle _ | .force _ => true

/-- The caller asserts no reset in what it still has to do. -/
def noReset (s : State) : Bool := s.caller.all Line.noReset

/-- The levels of `ir_out` during the next n ticks of a run (R6), this tick's first; shorter if a step answers none. -/
def levels : Nat → State → Wave
  | 0, _ => []
  | n + 1, s =>
    irOut cfg s.regs :: match step s with
      | .next s' => levels n s'
      | .fault _ => []
      | .refused _ => []

/-- n ticks of the block's step function under the port values io 0, io 1, …. -/
def ticks (k : Config) (io : Nat → Ports) : Nat → Registers → Registers
  | 0, r => r
  | n + 1, r => ticks k (fun j => io (j + 1)) n (tick k (io 0) r)

/-- The levels of `ir_out` during n ticks of the block's step function under the port values io. -/
def tickLevels (k : Config) (io : Nat → Ports) : Nat → Registers → Wave
  | 0, _ => []
  | n + 1, r => irOut k r :: tickLevels k (fun j => io (j + 1)) n (tick k (io 0) r)

end Sys2Proof.Machine
end

