-- ==== Sys2Proof/Certificates/Slice0/Obligations.lean ====
section
/-! DEFINITION. The statements for the provers, from the numbered rules of spec/. A docstring that names a decision D<n>
or a log entry says that the clause is the spec's own decision or the model's choice. No statement rests on a free value
or on the `drawn` counter, and but for `SampleWordsDecode`, which says so, none rests on the value of `DEVICE_ID` or of
an open command code: those about codes and encodings hold for every parameter record k, with codes that coincide too. -/

open Sys2Proof Sys2Proof.Machine

/-! ### Reset, outputs, order of the inputs -/

/-- R24 (D4): the registers right after reset, and the outputs they give. -/
def Obligations.ResetStateIsTheSpecsReset : Prop :=
  State.reset.regs = { phase := .idle, frame := 0, bitcnt := 0, crem := 0, cph := 0, srem := 0, done := false } ∧
  State.reset.regs.phase.code = 0 ∧ irOut cfg State.reset.regs = false ∧ busy State.reset.regs = false ∧
  doneOut State.reset.regs = false

/-- R135, R137 (D3, D4): in a tick with `rst` = 1 every register takes its reset value, whatever the registers, the
caller's other ports and the bench are (in registers no run reaches too), so a transmission is aborted with the line low
and without `DONE`. That the sub-blocks leave the bench is the model's choice (log 5). -/
def Obligations.ResetWinsInEveryState : Prop :=
  ∀ s : State, s.ports.rst = true →
    step s = .next { s with
      regs := { phase := .idle, frame := 0, bitcnt := 0, crem := 0, cph := 0, srem := 0, done := false }
      caller := s.rest
      bench := none }

/-- R17, R18, R21 (D2, D10, D12): the outputs are these functions of the registers; and R25 (i). The tick index is `CPH`;
its extension (the model's own, log 17) is 0 in the registers a run under the source's values reaches. -/
def Obligations.OutputsFollowTheRegisters : Prop :=
  ∀ r : Registers,
    (irOut cfg r = true ↔ (r.phase = .leadMark ∨ r.phase = .bitMark ∨ r.phase = .stopMark) ∧ r.cph.toNat + 32 * r.cphExt < 10) ∧
    (busy r = true ↔ r.phase ≠ .idle) ∧ doneOut r = r.done ∧ (irOut cfg r = true → busy r = true)

/-- R12 (D24): the numeric codes of the six phases. -/
def Obligations.PhaseCodes : Prop :=
  [Phase.idle, .leadMark, .leadSpace, .bitMark, .bitSpace, .stopMark].map Phase.code = [0, 1, 2, 3, 4, 5] ∧
  ∀ p : Phase, p.code.toNat ≤ 5

/-- R124 (D3, D5), R120: one tick of the wired block in any values of R25 examines its inputs in this order: reset, a
running transmission (whatever `start` and `cmd` are), acceptance, the idle step. -/
def Obligations.InputsAreExaminedInOrder : Prop :=
  ∀ s : State, s.bench = none → legal cfg s.regs = true →
    (s.ports.rst = true → ∃ t, step s = .next t ∧ t.regs = Registers.reset) ∧
    (s.ports.rst = false → s.regs.phase ≠ .idle →
      step s = .next { s with regs := tick cfg Ports.quiet s.regs, caller := s.rest }) ∧
    (s.ports.rst = false → s.regs.phase = .idle → s.ports.start = true →
      step s = .next { s with regs := accept cfg s.ports.cmd s.regs, caller := s.rest }) ∧
    (s.ports.rst = false → s.regs.phase = .idle → s.ports.start = false →
      step s = .next { s with regs := { s.regs with done := false }, caller := s.rest })

/-! ### The phase machine, tick by tick -/

/-- R66: inside a cycle `CPH` counts up; at the end of a cycle that is not the last `CREM` counts down and `CPH` is 0;
nothing else changes in either; the last tick ends the segment; neither counter wraps. -/
def Obligations.CarrierTickCounts : Prop :=
  ∀ s : State, s.bench = none → legal cfg s.regs = true → s.ports.rst = false → s.regs.phase.isMark = true →
    (s.regs.cph.toNat < 25 →
      step s = .next { s with regs := { s.regs with cph := s.regs.cph + 1 }, caller := s.rest } ∧
      (s.regs.cph + 1).toNat = s.regs.cph.toNat + 1) ∧
    (s.regs.cph = 25 → 1 < s.regs.crem.toNat →
      step s = .next { s with regs := { s.regs with crem := s.regs.crem - 1, cph := 0 }, caller := s.rest } ∧
      (s.regs.crem - 1).toNat = s.regs.crem.toNat - 1) ∧
    (s.regs.cph = 25 → s.regs.crem = 1 → ∃ t, step s = .next t ∧ t.regs.phase ≠ s.regs.phase)

/-- R87, the per-tick operation of a space: `SREM` counts down every tick but the last, and nothing else changes. -/
def Obligations.SpaceTickCounts : Prop :=
  ∀ s : State, s.bench = none → legal cfg s.regs = true → s.ports.rst = false → s.regs.phase.isSpace = true →
    (1 < s.regs.srem.toNat →
      step s = .next { s with regs := { s.regs with srem := s.regs.srem - 1 }, caller := s.rest } ∧
      (s.regs.srem - 1).toNat = s.regs.srem.toNat - 1) ∧
    (s.regs.srem = 1 → ∃ t, step s = .next t ∧ t.regs.phase ≠ s.regs.phase)

/-- R91. -/
def Obligations.LeaderMarkEnds : Prop :=
  ∀ s : State, s.bench = none → legal cfg s.regs = true → s.ports.rst = false →
    s.regs.phase = .leadMark → s.regs.cph = 25 → s.regs.crem = 1 →
    step s = .next { s with
      regs := { s.regs with phase := .leadSpace, srem := 4500, crem := 0, cph := 0 }
      caller := s.rest }

/-- R92. -/
def Obligations.LeaderSpaceEnds : Prop :=
  ∀ s : State, s.bench = none → legal cfg s.regs = true → s.ports.rst = false →
    s.regs.phase = .leadSpace → s.regs.srem = 1 →
    step s = .next { s with
      regs := { s.regs with phase := .bitMark, crem := 22, cph := 0, srem := 0 }
      caller := s.rest } ∧
    s.regs.bitcnt = 32

/-- R94: a bit equal to 1 gets the short space. -/
def Obligations.BitMarkEnds : Prop :=
  ∀ s : State, s.bench = none → legal cfg s.regs = true → s.ports.rst = false →
    s.regs.phase = .bitMark → s.regs.cph = 25 → s.regs.crem = 1 →
    step s = .next { s with
      regs := { s.regs with
        phase := .bitSpace
        srem := if s.regs.frame.getLsbD 0 then 565 else 1690
        crem := 0
        cph := 0 }
      caller := s.rest }

/-- R95: SHIFT, and the choice between the next data bit and the stop burst. -/
def Obligations.BitSpaceEnds : Prop :=
  ∀ s : State, s.bench = none → legal cfg s.regs = true → s.ports.rst = false →
    s.regs.phase = .bitSpace → s.regs.srem = 1 →
    step s = .next { s with
      regs := { s.regs with
        frame := s.regs.frame >>> 1
        bitcnt := s.regs.bitcnt - 1
        cph := 0
        srem := 0
        phase := if 1 < s.regs.bitcnt.toNat then .bitMark else .stopMark
        crem := 22 }
      caller := s.rest }

/-- R96 (D10): the stop mark ends the transmission; in the next tick `busy` = 0, `done` = 1, `ir_out` = 0. -/
def Obligations.StopMarkEnds : Prop :=
  ∀ s : State, s.bench = none → legal cfg s.regs = true → s.ports.rst = false →
    s.regs.phase = .stopMark → s.regs.cph = 25 → s.regs.crem = 1 →
    ∃ t, step s = .next t ∧ t = { s with regs := { Registers.reset with done := true }, caller := s.rest } ∧
      busy t.regs = false ∧ doneOut t.regs = true ∧ irOut cfg t.regs = false

/-- R89: the phase stays in every tick but the last of a segment (and a tick in `IDLE` without `start`), and moves only
along these edges, by these conditions; no edge looks at `cmd`. -/
def Obligations.PhaseMovesOnlyAlongTheEdges : Prop :=
  ∀ s t : State, s.bench = none → legal cfg s.regs = true → step s = .next t →
    (s.ports.rst = true → t.regs.phase = .idle) ∧
    (s.ports.rst = false →
      t.regs.phase = match s.regs.phase with
        | .idle => if s.ports.start then .leadMark else .idle
        | .leadMark => if s.regs.cph = 25 ∧ s.regs.crem = 1 then .leadSpace else .leadMark
        | .leadSpace => if s.regs.srem = 1 then .bitMark else .leadSpace
        | .bitMark => if s.regs.cph = 25 ∧ s.regs.crem = 1 then .bitSpace else .bitMark
        | .bitSpace =>
          if s.regs.srem = 1 then (if 1 < s.regs.bitcnt.toNat then .bitMark else .stopMark) else .bitSpace
        | .stopMark => if s.regs.cph = 25 ∧ s.regs.crem = 1 then .idle else .stopMark)

/-- R17 (D10): `DONE` is 1 after a tick exactly when that tick, without reset, was the last of a stop mark; so it is 1
in the first `IDLE` tick after a transmission and never in the tick after that. -/
def Obligations.DoneIsAPulseOfOneTick : Prop :=
  ∀ s t : State, s.bench = none → legal cfg s.regs = true → step s = .next t →
    (t.regs.done = true ↔
      s.ports.rst = false ∧ s.regs.phase = .stopMark ∧ s.regs.cph = 25 ∧ s.regs.crem = 1)

/-- R11 over all ticks: `FRAME` is written only by reset, by an accepted command, and at the end of a data bit's space. -/
def Obligations.FrameIsWrittenOnlyByAssembleAndShift : Prop :=
  ∀ s t : State, s.bench = none → legal cfg s.regs = true → step s = .next t → t.regs.frame ≠ s.regs.frame →
    (s.ports.rst = true ∧ t.regs.frame = 0) ∨
    (s.ports.rst = false ∧ s.regs.phase = .idle ∧ s.ports.start = true ∧
      t.regs.frame = assembled cfg s.ports.cmd) ∨
    (s.ports.rst = false ∧ s.regs.phase = .bitSpace ∧ s.regs.srem = 1 ∧ t.regs.frame = s.regs.frame >>> 1)

/-! ### What each operation does, and that it completes -/

/-- R90 (D5, D6, D11): a command presented in `IDLE` is accepted; every register is written, nothing of the caller or the
bench. `DEVICE_ID` stands for whatever value the record gives it (D13). -/
def Obligations.SendIsAcceptedInIdle : Prop :=
  ∀ (c : Cmd) (s : State), legal cfg s.regs = true → s.regs.phase = .idle →
    exec (.send c) s = .next { s with
      regs :=
        { phase := .leadMark
          frame := ((1#32) <<< 24) ||| ((c.setWidth 32) <<< 16) ||| (cfg.deviceId.setWidth 32)
          bitcnt := 32
          crem := 347
          cph := 0
          srem := 0
          done := false } }

/-- R111 to R116: each button operation, issued in `IDLE`, is accepted as SEND of its code; `MENU` and `UP` with the
document's codes, the other four with whatever code the record gives them (D14). -/
def Obligations.ButtonsAreAcceptedAsTheirCodes : Prop :=
  ∀ s : State, legal cfg s.regs = true → s.regs.phase = .idle →
    exec .menu s = .next { s with regs := accept cfg 0xFC s.regs } ∧
    exec .play s = .next { s with regs := accept cfg cfg.cmdPlay s.regs } ∧
    exec .left s = .next { s with regs := accept cfg cfg.cmdLeft s.regs } ∧
    exec .right s = .next { s with regs := accept cfg cfg.cmdRight s.regs } ∧
    exec .up s = .next { s with regs := accept cfg 0xF5 s.regs } ∧
    exec .down s = .next { s with regs := accept cfg cfg.cmdDown s.regs } ∧
    ∀ c : Cmd, accept cfg c s.regs =
      { phase := .leadMark, frame := assembled cfg c, bitcnt := 32, crem := 347, cph := 0, srem := 0, done := false }

/-- R93, R124 (D5): a command presented while a transmission runs is dropped: the tick is the one that quiet ports would
give, for each of the seven operations a caller can issue. -/
def Obligations.CommandsAreDroppedWhileBusy : Prop :=
  ∀ (i : Instr) (s : State), (i.command? cfg).isSome = true → legal cfg s.regs = true → s.regs.phase ≠ .idle →
    exec i s = .next { s with regs := tick cfg Ports.quiet s.regs }

/-- R43: every one of the 256 command bytes is an operation, and it is transmitted as any other: what its word decodes to
is SEND of that byte in every state, and it is accepted in `IDLE`. For every record, and for the build `cfg`. -/
def Obligations.EveryCommandByteIsTransmitted : Prop :=
  (∀ (k : Config) (c : Cmd) (s : State), ∃ i, decode k (.cmd8 c) = .ok i ∧ execIn k i s = execIn k (.send c) s ∧
    (k.valid = true → legal k s.regs = true → s.regs.phase = .idle →
      execIn k i s = .next { s with regs := accept k c s.regs })) ∧
  (∀ (c : Cmd) (s : State), ∃ i, decode cfg (.cmd8 c) = .ok i ∧ exec i s = exec (.send c) s ∧
    (legal cfg s.regs = true → s.regs.phase = .idle → exec i s = .next { s with regs := accept cfg c s.regs }))

/-- R60, R61, R65 (D6, D9): `BURST t` with t at least 1 starts a burst of ceil_div(t, 26) cycles, which `CREM` holds
unwrapped; it writes `PHASE`, `CREM`, `CPH` and `SREM` only. Which mark phase it enters, the bench, and the extensions of
`CREM` and `CPH` (0), are the model's choice (log 5, log 6, log 17). -/
def Obligations.BurstStartsItsCycles : Prop :=
  ∀ (t : Dur) (s : State), t ≠ 0 → ∃ p : Phase, p.isMark = true ∧
    exec (.burst t) s = .next { s with
      regs := { s.regs with
        phase := p
        crem := BitVec.ofNat 12 (ceilDiv t.toNat 26)
        cph := 0
        srem := 0
        cremExt := 0
        cphExt := 0 }
      bench := some (s.bench.getD []) } ∧
    (BitVec.ofNat 12 (ceilDiv t.toNat 26)).toNat = ceilDiv t.toNat 26

/-- R87: `SPACE t` with t at least 1 starts a space of t ticks; it writes `PHASE`, `SREM`, `CREM` and `CPH` only. Which
space phase it enters, the bench, and the extensions of `CREM` and `CPH` (0), are the model's choice (log 5, log 6,
log 17). -/
def Obligations.SpaceStartsItsTicks : Prop :=
  ∀ (t : Dur) (s : State), t ≠ 0 → ∃ p : Phase, p.isSpace = true ∧
    exec (.space t) s = .next { s with
      regs := { s.regs with phase := p, srem := t, crem := 0, cph := 0, cremExt := 0, cphExt := 0 }
      bench := some (s.bench.getD []) }

/-- R64 (D20): a segment of duration 0 changes nothing, has an empty waveform and no cycles. -/
def Obligations.EmptySegmentsDoNothing : Prop :=
  (∀ s : State, exec (.burst 0) s = .next s ∧ exec (.space 0) s = .next s) ∧
  (∀ k : Config, k.valid = true → cycles k 0 = 0 ∧ burstWave k 0 = [] ∧ burstTicks k 0 = 0 ∧ spaceWave 0 = [])

/-- R76 (D11): ASSEMBLE writes `FRAME` and `BITCNT` and nothing else; and, under every record and whatever stands in the
device field of its word, the frame has the record's `REMOTE_ID` and `DEVICE_ID` and no other (R50). -/
def Obligations.AssembleBuildsTheFrame : Prop :=
  (∀ (c : Cmd) (d : BitVec 16) (s : State),
    exec (.assemble c d) s = .next { s with
      regs := { s.regs with
        frame := ((1#32) <<< 24) ||| ((c.setWidth 32) <<< 16) ||| (cfg.deviceId.setWidth 32)
        bitcnt := 32 } }) ∧
  (∀ (k : Config) (c : Cmd) (d : BitVec 16) (s : State), ∃ t, execIn k (.assemble c d) s = .next t ∧
    t.regs.bitcnt = 32 ∧ t.regs.frame.extractLsb' 24 8 = k.remoteId ∧ t.regs.frame.extractLsb' 16 8 = c ∧
    t.regs.frame.extractLsb' 0 16 = k.deviceId)

/-- R80: SHIFT writes `FRAME` and `BITCNT` and nothing else; bit 31 becomes 0. At `BITCNT` = 0, where the spec issues no
SHIFT, `BITCNT` gets a free value (log 12) and the rest is as ever. -/
def Obligations.ShiftAdvancesTheFrame : Prop :=
  ∀ s : State,
    (s.regs.bitcnt ≠ 0 →
      exec .shift s =
        .next { s with regs := { s.regs with frame := s.regs.frame >>> 1, bitcnt := s.regs.bitcnt - 1 } } ∧
      (s.regs.bitcnt - 1).toNat = s.regs.bitcnt.toNat - 1) ∧
    (s.regs.bitcnt = 0 → ∃ (v : BitVec 6) (n : Nat),
      exec .shift s =
        .next { s with regs := { s.regs with frame := s.regs.frame >>> 1, bitcnt := v }, drawn := n }) ∧
    (s.regs.frame >>> 1).getLsbD 31 = false

/-- R46: the four wire symbols: their durations, the SHORT space after a 1, the one-bit pattern of the data symbols and
that the others have none. Each starts its burst (whose phase is the model's choice, log 6), puts its space, if it has
one, next on the bench, and changes nothing else (the extensions of `CREM` and `CPH` are 0, log 17). -/
def Obligations.SymbolsAreTheirSegments : Prop :=
  (∀ s : State, ∃ p : Phase, p.isMark = true ∧
    exec .leader s = .next { s with
      regs := { s.regs with phase := p, crem := 347, cph := 0, srem := 0, cremExt := 0, cphExt := 0 }
      bench := some (.seg17 (Seg.space 4500).word :: s.bench.getD []) } ∧
    exec .bit1 s = .next { s with
      regs := { s.regs with phase := p, crem := 22, cph := 0, srem := 0, cremExt := 0, cphExt := 0 }
      bench := some (.seg17 (Seg.space 565).word :: s.bench.getD []) } ∧
    exec .bit0 s = .next { s with
      regs := { s.regs with phase := p, crem := 22, cph := 0, srem := 0, cremExt := 0, cphExt := 0 }
      bench := some (.seg17 (Seg.space 1690).word :: s.bench.getD []) } ∧
    exec .stop s = .next { s with
      regs := { s.regs with phase := p, crem := 22, cph := 0, srem := 0, cremExt := 0, cphExt := 0 }
      bench := some (s.bench.getD []) }) ∧
  leaderSymbol cfg = [.burst 9000, .space 4500] ∧ bitSymbol cfg true = [.burst 560, .space 565] ∧
  bitSymbol cfg false = [.burst 560, .space 1690] ∧ stopSymbol cfg = [.burst 560] ∧
  decode cfg (.bench (.wire1 1)) = .ok .bit1 ∧ decode cfg (.bench (.wire1 0)) = .ok .bit0 ∧
  (encode cfg .leader).number = none ∧ (encode cfg .stop).number = none

/-! ### Encodings -/

/-- R40 to R49: under every parameter record, the decoder reads every well-formed operation, with every value of its
operands, from its own word. What is well formed is the model's choice: that a byte with a name is written as the name,
the first of them where codes coincide (log 8), and that ASSEMBLE has a FRAME32 word as its own, whose device field is
`DEVICE_ID` (log 9). Nothing is assumed of the six codes. -/
def Obligations.DecodeReadsWhatEncodeWrites : Prop :=
  ∀ (k : Config) (i : Instr), i.wellFormed k = true → decode k (encode k i) = .ok i

/-- The other direction, under every parameter record: whatever the decoder reads is well formed and is written as the
word it was read from, so no two words read as one operation and no bit is dropped; and the only words it rejects are
FRAME32 words with another remote or device identifier, which the encoder never produces (R50). That such words are
rejected, and which terms are well formed, are the model's choice (log 8, log 9). -/
def Obligations.EveryWordHasOneReading : Prop :=
  ∀ (k : Config) (w : CodeWord),
    (∀ i, decode k w = .ok i → i.wellFormed k = true ∧ encode k i = w) ∧
    (∀ why, decode k w = .error why → ∃ f : FrameWord, w = .bench (.frame32 f) ∧
      ((why = .otherRemoteId ∧ f.extractLsb' 24 8 ≠ k.remoteId) ∨
        (why = .otherDeviceId ∧ f.extractLsb' 0 16 ≠ k.deviceId)))

/-- The same on plain numbers, as spec/opcode_table.json numbers the bits, under every parameter record: an operation that
has an encoding is read from it, a SEG17 word in three whole bytes too; a number with a bit above its format's width is
no operation; and the host's `decodeTableWord` is this decoder under the record `cfg`. Which format a width names and
which terms are well formed are the model's choice (log 8, and log 9 for FRAME32). -/
def Obligations.NumberedWordsDecode : Prop :=
  (∀ (k : Config) (i : Instr) (n w : Nat), i.wellFormed k = true → (encode k i).number = some (n, w) →
    decodeNumber k n w = .ok i ∧ (n = 17 → decodeNumber k 24 w = .ok i)) ∧
  (∀ (k : Config) (n w : Nat), n ∈ [1, 8, 17, 32] → 2 ^ n ≤ w → decodeNumber k n w = .error .strayBits) ∧
  (∀ (k : Config) (w : Nat), 2 ^ 17 ≤ w → decodeNumber k 24 w = .error .strayBits) ∧
  (∀ (n w : Nat) (i : Instr), decodeTableWord n w = some i ↔ decodeNumber cfg n w = .ok i)

/-- A few words written out from 30_encoding.md decode to the operations they stand for (a sanity statement). It rests on
the record `cfg`: that 0x12 has no name and 0xF5 none but UP (log 2), and that 0x7811 is the device identifier (log 1);
that 8, 24, 32 and 1 bits name the formats (log 8), and that a frame word with remote identifier 2 or with another
device identifier is read as nothing (log 9), are the model's choice. -/
def Obligations.SampleWordsDecode : Prop :=
  decodeTableWord 8 0b11111100 = some .menu ∧ decodeTableWord 8 0b11110101 = some .up ∧
  decodeTableWord 8 0b00010010 = some (.send 0x12) ∧
  decodeTableWord 24 0b10010001100101000 = some (.burst 9000) ∧
  decodeTableWord 24 0b00001000110010100 = some (.space 4500) ∧
  decodeTableWord 32 0b00000001111111000111100000010001 = some (.assemble 0xFC 0x7811) ∧
  decodeTableWord 1 1 = some .bit1 ∧ decodeTableWord 1 0 = some .bit0 ∧
  decodeTableWord 32 0b00000010111111000111100000010001 = none ∧
  decodeTableWord 32 0b00000001111111000111100000010000 = none

/-! ### A step runs the operation it takes -/

/-- R41, R124: in the block as wired, without reset, a command on the ports is run as the operation its byte decodes to,
in the state whose caller has moved on by one tick. -/
def Obligations.PortCommandRunsItsOperation : Prop :=
  ∀ (s : State) (i : Instr), s.bench = none → s.ports.rst = false → s.ports.start = true →
    decode cfg (.cmd8 s.ports.cmd) = .ok i → step s = exec i { s with caller := s.rest }

/-- The model's bench (log 5, log 7): where no segment goes on, the first word's operation is run, `DONE` lowered in
`IDLE` (R97), the word gone from the bench; and if it used no time the next words are run at the same tick boundary. -/
def Obligations.BenchWordRunsItsOperation : Prop :=
  ∀ (s : State) (w : BenchWord) (ws : List BenchWord) (i : Instr),
    s.bench = some (w :: ws) → s.ports.rst = false → benchLegal cfg s.regs = true → running cfg s.regs = false →
    decode cfg (.bench w) = .ok i →
    ∃ t, exec i { s with
        regs := if s.regs.phase = .idle then { s.regs with done := false } else s.regs
        caller := s.rest
        bench := some ws } = .next t ∧
      step s = if takesTime i then .next t else issue cfg ws t

/-- `withFetchWord` (log 16): a command word placed on the ports of any state, and any other word placed on the bench of
a state in `IDLE`, is what the very next step runs, and all that it runs. -/
def Obligations.PlacedWordIsRunByTheNextStep : Prop :=
  (∀ (s : State) (w : Nat) (i : Instr), decodeTableWord 8 w = some i →
    step (s.withFetchWord 8 w) = exec i { s with bench := none }) ∧
  (∀ (s : State) (n w : Nat) (i : Instr), n ≠ 8 → decodeTableWord n w = some i →
    s.regs.phase = .idle → benchLegal cfg s.regs = true →
    step (s.withFetchWord n w) = exec i { s with regs := { s.regs with done := false }, bench := some [] })

/-! ### Invariants, and where the machine stops -/

/-- The invariant holds at reset (R24, R25). -/
def Obligations.ResetMeetsTheInvariant : Prop := invariant State.reset = true ∧ benchReadable State.reset = true

/-- R25 is inductive: every step from a state that meets the invariant leads to one that meets it. -/
def Obligations.StepKeepsTheInvariant : Prop :=
  ∀ s s' : State, invariant s = true → step s = .next s' → invariant s' = true

/-- R120, R131: from a state that meets the invariant, with readable words on the bench, whatever the caller does, a step
answers a next state; and the words on the bench stay readable. So no run from reset is ever stuck or refused. -/
def Obligations.LegalStatesNeverStop : Prop :=
  ∀ s : State, invariant s = true → benchReadable s = true → ∃ s', step s = .next s' ∧ benchReadable s' = true

/-- R131, R139, U13: without reset, a state outside the invariant is refused, by name. -/
def Obligations.UnreachableStatesAreRefused : Prop :=
  ∀ s : State, s.ports.rst = false → invariant s = false → step s = .refused .unreachableState

/-- R131, R3 (D20): the operation every tick of the wired block goes through refuses a parameter record that breaks the
constraint, in every state and under every input; it refuses nothing else but, without reset, unreachable registers, and
it never faults; the record of this model meets the constraint. -/
def Obligations.BadParametersAreRefused : Prop :=
  (∀ (k : Config) (io : Ports) (s : State),
    (k.tHigh = 0 ∨ k.tLeadMark = 0 ∨ 65535 < k.tLeadMark ∨ k.tLeadSpace = 0 ∨ 65535 < k.tLeadSpace ∨
      k.tBitMark = 0 ∨ 65535 < k.tBitMark ∨ k.tOneSpace = 0 ∨ 65535 < k.tOneSpace ∨ k.tZeroSpace = 0 ∨
      65535 < k.tZeroSpace ∨ k.tStopMark = 0 ∨ 65535 < k.tStopMark) →
    blockTick k io s = .refused .badParameters) ∧
  (∀ (k : Config) (io : Ports) (s : State) (why : Refusal), blockTick k io s = .refused why →
    (why = .badParameters ∧
      ¬ (1 ≤ k.tHigh ∧ ∀ d ∈ [k.tLeadMark, k.tLeadSpace, k.tBitMark, k.tOneSpace, k.tZeroSpace, k.tStopMark],
        1 ≤ d ∧ d ≤ 65535)) ∨
    (why = .unreachableState ∧ io.rst = false ∧ legal k s.regs = false)) ∧
  (∀ (k : Config) (io : Ports) (s : State) (f : Fault), blockTick k io s ≠ .fault f) ∧
  cfg.valid = true

/-- The check of the machine, under the source's values, is R25 (a) to (h), whose frame is that of some accepted command;
and the model's extensions of `CREM` and `CPH` are 0 (log 17). -/
def Obligations.LegalRegistersAreThoseOfTheSpec : Prop :=
  ∀ r : Registers, legal cfg r = true ↔
    (r.phase.isMark = true →
      1 ≤ r.crem.toNat ∧ r.crem.toNat ≤ 347 ∧ r.cph.toNat ≤ 25 ∧ r.srem = 0) ∧
    (r.phase.isSpace = true → 1 ≤ r.srem.toNat ∧ r.srem.toNat ≤ 4500 ∧ r.crem = 0 ∧ r.cph = 0) ∧
    (r.phase = .leadMark ∨ r.phase = .leadSpace → r.bitcnt = 32 ∧ ∃ c : Cmd, r.frame = assembled cfg c) ∧
    (r.phase = .bitMark ∨ r.phase = .bitSpace →
      1 ≤ r.bitcnt.toNat ∧ r.bitcnt.toNat ≤ 32 ∧
      ∃ c : Cmd, r.frame = assembled cfg c >>> (32 - r.bitcnt.toNat)) ∧
    (r.phase = .stopMark → r.bitcnt = 0 ∧ r.frame = 0) ∧
    (r.phase = .idle → r.frame = 0 ∧ r.bitcnt = 0 ∧ r.crem = 0 ∧ r.cph = 0 ∧ r.srem = 0) ∧
    (r.done = true → r.phase = .idle) ∧ r.cremExt = 0 ∧ r.cphExt = 0

/-! ### The frame encoder -/

/-- R45: zero-extension, shift and OR place the three fields; OR, addition and concatenation give the same word. For every
remote identifier, command and device identifier. -/
def Obligations.FrameFieldsArePlaced : Prop :=
  ∀ (k : Config) (c : Cmd) (d : BitVec 16),
    frameOf k c d = k.remoteId ++ c ++ d ∧
    frameOf k c d = ((k.remoteId.setWidth 32) <<< 24) + ((c.setWidth 32) <<< 16) + (d.setWidth 32) ∧
    (frameOf k c d).extractLsb' 24 8 = k.remoteId ∧ (frameOf k c d).extractLsb' 16 8 = c ∧
    (frameOf k c d).extractLsb' 0 16 = d

/-- R81, R79: after n SHIFTs of an assembled frame F, `FRAME` is F shifted right n times, `BITCNT` is 32 - n, and the
current bit is bit n of F; after the 32nd, both are 0. -/
def Obligations.ShiftsHandOutTheFrame : Prop :=
  ∀ (k : Config) (c : Cmd) (r : Registers) (n : Nat), n ≤ 32 →
    (shift^[n] (assemble k c r)).frame = assembled k c >>> n ∧
    (shift^[n] (assemble k c r)).bitcnt.toNat = 32 - n ∧
    (n < 32 → currentBit (shift^[n] (assemble k c r)) = (assembled k c).getLsbD n) ∧
    (n = 32 → (shift^[n] (assemble k c r)).frame = 0)

/-- R82, R83: for every device identifier D and command c, the bits on the wire are D's sixteen, least significant first,
c's eight, least significant first, then 1, 0, 0, 0, 0, 0, 0, 0; for the menu command the eight are 00111111. -/
def Obligations.BitsLeaveLeastSignificantFirst : Prop :=
  (∀ (D : BitVec 16) (c : Cmd), frameBits (assembled { cfg with deviceId := D } c) =
    (List.range 16).map D.getLsbD ++ (List.range 8).map c.getLsbD ++
      [true, false, false, false, false, false, false, false]) ∧
  (List.range 8).map (BitVec.getLsbD (0xFC : Cmd)) = [false, false, true, true, true, true, true, true]

/-! ### Segment list, counts, durations -/

/-- R47: LEADER, 32 data symbols, STOP; data symbol i is `BIT1` if frame bit i is 1 and `BIT0` if it is 0; the bits are
those of the device identifier, then of the command, then `BIT1` and seven `BIT0`. For every device identifier. -/
def Obligations.FrameOnTheWireIsItsSymbols : Prop :=
  ∀ (D : BitVec 16) (c : Cmd),
    let k := { cfg with deviceId := D }
    (segList k c).length = 67 ∧
    (segList k c).take 2 = [.burst 9000, .space 4500] ∧
    (∀ i, i < 32 → ((segList k c).drop (2 + 2 * i)).take 2 =
      if (assembled k c).getLsbD i then [.burst 560, .space 565] else [.burst 560, .space 1690]) ∧
    (segList k c).drop 66 = [.burst 560] ∧
    (∀ i, i < 16 → (assembled k c).getLsbD i = D.getLsbD i) ∧
    (∀ i, i < 8 → (assembled k c).getLsbD (16 + i) = c.getLsbD i) ∧
    (assembled k c).getLsbD 24 = true ∧ ∀ i, 24 < i → (assembled k c).getLsbD i = false

/-- R98: for every device identifier and command, 34 bursts, 33 spaces, 1073 carrier cycles, 1073 rising edges and 10730
ticks with the line high. -/
def Obligations.CountsPerFrame : Prop :=
  ∀ (D : BitVec 16) (c : Cmd),
    let k := { cfg with deviceId := D }
    ((segList k c).filter fun g => match g with | .burst _ => true | .space _ => false).length = 34 ∧
    ((segList k c).filter fun g => match g with | .burst _ => false | .space _ => true).length = 33 ∧
    ((segList k c).map fun g => match g with | .burst t => cycles k t.toNat | .space _ => 0).sum = 1073 ∧
    risingEdges false (wave k c) = 1073 ∧ (wave k c).count true = 10730

/-- R99: the sum of the requested durations, n1 being the number of data bits equal to 1. -/
def Obligations.NominalFrameTime : Prop :=
  ∀ (D : BitVec 16) (c : Cmd),
    let k := { cfg with deviceId := D }
    tNominal k c = 9000 + 4500 + 32 * 560 + 560 + 565 * ones k c + 1690 * (32 - ones k c) ∧
    tNominal k c = 31980 + 565 * ones k c + 1690 * (32 - ones k c) ∧ ones k c ≤ 32

/-- R100, R101: the emitted time is the length of the waveform and is 418 ticks more than the nominal; n1 is the number of
ones of the device identifier and of the command, plus one; the ranges of both times. -/
def Obligations.EmittedFrameTime : Prop :=
  ∀ (D : BitVec 16) (c : Cmd),
    let k := { cfg with deviceId := D }
    tEmitted k c = tNominal k c + 418 ∧ (wave k c).length = tEmitted k c ∧
    ones k c = ((List.range 16).map D.getLsbD).count true + ((List.range 8).map c.getLsbD).count true + 1 ∧
    58353 ≤ tEmitted k c ∧ tEmitted k c ≤ 85353 ∧ 57935 ≤ tNominal k c ∧ tNominal k c ≤ 84935

/-- R61, R63: the cycle count is the least that reaches the requested duration; the burst is longer than requested by at
most 25 ticks, and not at all exactly for a multiple of 26. -/
def Obligations.BurstsAreRoundedUp : Prop :=
  ∀ d : Nat,
    d ≤ 26 * cycles cfg d ∧ (∀ n, d ≤ 26 * n → cycles cfg d ≤ n) ∧ (burstWave cfg d).length = 26 * cycles cfg d ∧
    burstTicks cfg d ≤ d + 25 ∧ (burstTicks cfg d = d ↔ d % 26 = 0)

/-- R67: a burst of N cycles is high for 10 N ticks and has N rising edges, the first at its first tick. -/
def Obligations.BurstsHaveTheirEdges : Prop :=
  ∀ d : Nat,
    (burstWave cfg d).count true = 10 * cycles cfg d ∧ risingEdges false (burstWave cfg d) = cycles cfg d ∧
    (1 ≤ d → (burstWave cfg d).head? = some true ∧
      (burstWave cfg d).drop (26 * cycles cfg d - 16) = List.replicate 16 false)

/-- The document's round-trip property (95_test_vectors.md E4, D21): for every command and device identifier, the
reference decoder gives back the assembled frame. -/
def Obligations.ReferenceDecoderRoundTrip : Prop :=
  ∀ (D : BitVec 16) (c : Cmd), decodeSegs { cfg with deviceId := D } (segList { cfg with deviceId := D } c) =
    some (assembled { cfg with deviceId := D } c)

/-! ### Runs -/

/-- R86, R88, R100: for every device identifier, command, earlier registers in `IDLE`, and whatever the ports do short of a
reset after the accepting tick, the line shows `wave(c)` tick for tick from the tick after it, and then the block is
idle with `DONE` = 1 and every other register 0 (R96, D10). -/
def Obligations.TransmissionIsTheWaveForEveryDevice : Prop :=
  ∀ (D : BitVec 16) (c : Cmd) (io : Nat → Ports) (r : Registers),
    let k := { cfg with deviceId := D }
    r.phase = .idle → io 0 = Ports.present c → (∀ j, j ≤ tEmitted k c → (io j).rst = false) →
    tickLevels k io (1 + tEmitted k c) r = false :: wave k c ∧
    ticks k io (1 + tEmitted k c) r = { Registers.reset with done := true }

/-- R130, R88: the same of the machine's own step, for a caller that asserts no reset, whatever else it does; and `busy`
is 1 in each of the T_emitted ticks after the accepting one, after which it is 0 and `done` is 1. -/
def Obligations.AcceptedCommandShowsItsWave : Prop :=
  ∀ (c : Cmd) (s : State), s.bench = none → legal cfg s.regs = true → s.regs.phase = .idle →
    s.ports = Ports.present c → noReset s = true →
    levels (1 + tEmitted cfg c) s = false :: wave cfg c ∧
    (∀ m, 1 ≤ m → m ≤ tEmitted cfg c →
      ∃ t, Host.Core.run Sys2Proof.core m s = .next t ∧ busy t.regs = true ∧ doneOut t.regs = false) ∧
    ∃ t, Host.Core.run Sys2Proof.core (1 + tEmitted cfg c) s = .next t ∧ t.bench = none ∧
      t.regs = { Registers.reset with done := true } ∧ busy t.regs = false ∧ doneOut t.regs = true

/-- R93, R37, R105: two runs of the wired block that start in the same registers and differ only in what their callers do,
short of a reset, hold the same registers as long as the transmission in progress runs. -/
def Obligations.CallersCannotDisturbATransmission : Prop :=
  ∀ (s s' : State) (n : Nat), s.bench = none → s'.bench = none → s.regs = s'.regs → legal cfg s.regs = true →
    noReset s = true → noReset s' = true →
    (∀ m, m < n → ∃ t, Host.Core.run Sys2Proof.core m s = .next t ∧ busy t.regs = true) →
    ∃ t t', Host.Core.run Sys2Proof.core n s = .next t ∧ Host.Core.run Sys2Proof.core n s' = .next t' ∧
      t.regs = t'.regs ∧ levels n s = levels n s'

/-- R22, R103: nothing of earlier registers influences a transmission: acceptance from any two values in `IDLE` gives the
same registers. For every parameter record. -/
def Obligations.AcceptanceForgetsThePast : Prop :=
  ∀ (k : Config) (io : Ports) (r r' : Registers), io.start = true → r.phase = .idle → r'.phase = .idle →
    tick k io r = tick k io r'

/-- R51, R62, R64, R87 (D17, D20): the modulator alone shows exactly the waveforms of its segment words, one after the
other with no tick between them, an empty segment taking none, and the line is low with no segment in progress at the
end. The bench is the model's (log 5, log 7). -/
def Obligations.ModulatorAloneShowsItsScript : Prop :=
  ∀ (L : List Seg) (s : State), s.bench = some (L.map fun g => .seg17 g.word) → benchLegal cfg s.regs = true →
    s.regs.phase = .idle → noReset s = true →
    levels (1 + (L.map (emitted cfg)).sum) s = false :: L.flatMap (segWave cfg) ∧
    ∃ t, Host.Core.run Sys2Proof.core (1 + (L.map (emitted cfg)).sum) s = .next t ∧ t.bench = some [] ∧
      t.regs = { s.regs with done := false }

/-- R26, R52: the transmission of c is the operations ASSEMBLE, LEADER, then 32 times a data symbol and SHIFT, then STOP:
given to the sub-blocks on the bench (log 5, log 6) they hold, in every tick of the transmission, the very registers
that the wired block holds. -/
def Obligations.TransmissionIsItsOperations : Prop :=
  ∀ (c : Cmd) (s b : State) (n : Nat), s.bench = none → legal cfg s.regs = true → s.regs.phase = .idle →
    s.ports = Ports.present c → noReset s = true → noReset b = true → b.regs = s.regs →
    b.bench = some ([.frame32 (assembled cfg c), .leader] ++
      (frameBits (assembled cfg c)).flatMap (fun bit => [.wire1 (if bit then 1 else 0), .shift]) ++ [.stop]) →
    n ≤ tEmitted cfg c →
    ∃ t t', Host.Core.run Sys2Proof.core n s = .next t ∧ Host.Core.run Sys2Proof.core n b = .next t' ∧
      t.regs = t'.regs

/-! ### The caller's script -/

/-- R51, R52: what each line of a script puts on the ports, and how long it stays, the six names standing for the codes
of any record k. The model's choice are: that WAITDONE, once it sees `busy` = 0, and IDLE 0 use no tick (log 4); that a
RESET line drives `start` = 0 and `cmd` = 0, that a waiting line drives `cmd` = 0, and that raw port values are a line
(log 3). -/
def Obligations.ScriptLinesDriveThePorts : Prop :=
  ∀ (k : Config) (ls : List Line) (c : Cmd) (x : Button) (n : Nat) (p : Ports),
    (∀ b, drive k (.reset :: ls) b = ({ rst := true, start := false, cmd := 0 }, ls)) ∧
    drive k (.send c :: ls) true = (Ports.quiet, .send c :: ls) ∧
    drive k (.send c :: ls) false = ({ rst := false, start := true, cmd := c }, ls) ∧
    (∀ b, drive k (.button x :: ls) b =
      if b then (Ports.quiet, .button x :: ls) else drive k (.send (codeOf k x) :: ls) false) ∧
    drive k (.waitDone :: ls) true = (Ports.quiet, .waitDone :: ls) ∧
    drive k (.waitDone :: ls) false = drive k ls false ∧
    (∀ b, drive k (.idle (n + 1) :: ls) b = (Ports.quiet, .idle n :: ls) ∧ drive k (.idle 0 :: ls) b = drive k ls b) ∧
    (∀ b, drive k (.force c :: ls) b = ({ rst := false, start := true, cmd := c }, ls)) ∧
    (∀ b, drive k (.pins p :: ls) b = (p, ls)) ∧
    (Ports.quiet.rst = false ∧ Ports.quiet.start = false)

/-! ### The parameter record as an argument -/

/-- R42, R19, R3: the model takes the parameter record, and with it the four open codes and the device identifier, as an
argument; the host's `exec` and `step` are its operations and its step under the record `cfg` (log 1, log 2 for its open
values); and under every record a command on the ports is run as the operation its byte decodes to. -/
def Obligations.BuildIsAnArgument : Prop :=
  (∀ (i : Instr) (s : State), exec i s = execIn cfg i s) ∧
  (∀ s : State, step s = stepTick cfg s) ∧
  (∀ (k : Config) (s : State) (i : Instr), s.bench = none → (s.portsIn k).rst = false → (s.portsIn k).start = true →
    decode k (.cmd8 (s.portsIn k).cmd) = .ok i → stepTick k s = execIn k i { s with caller := s.restIn k })

/-- R42, R52: under every record, codes that coincide included, a name is an alias of SEND of its code: the same step in
every state; and what its word decodes to, which the decoder cannot and need not tell from it, is that operation too. -/
def Obligations.NamesAreAliasesOfSend : Prop :=
  ∀ (k : Config) (i : Instr) (c : Cmd), i.command? k = some c →
    (∀ s : State, execIn k i s = execIn k (.send c) s) ∧
    ∃ j, decode k (encode k i) = .ok j ∧ j.wellFormed k = true ∧ ∀ s : State, execIn k j s = execIn k i s

/-- R42, R110 to R116: under every record that meets the constraint, in `IDLE`, each of the six is accepted with the code
the record gives it: `PLAY` is 0xFA only where `CMD_PLAY` is. The registers after acceptance, for every record; the
extension of `CREM` is 0 where its twelve bits hold the count (log 17). -/
def Obligations.ButtonsFollowTheRecord : Prop :=
  ∀ (k : Config) (s : State), k.valid = true → legal k s.regs = true → s.regs.phase = .idle →
    execIn k .menu s = .next { s with regs := accept k k.cmdMenu s.regs } ∧
    execIn k .play s = .next { s with regs := accept k k.cmdPlay s.regs } ∧
    execIn k .left s = .next { s with regs := accept k k.cmdLeft s.regs } ∧
    execIn k .right s = .next { s with regs := accept k k.cmdRight s.regs } ∧
    execIn k .up s = .next { s with regs := accept k k.cmdUp s.regs } ∧
    execIn k .down s = .next { s with regs := accept k k.cmdDown s.regs } ∧
    ∀ c : Cmd, accept k c s.regs =
      { phase := .leadMark
        frame := assembled k c
        bitcnt := 32
        crem := BitVec.ofNat 12 (ceilDiv k.tLeadMark k.tCycle)
        cph := 0
        srem := 0
        done := false
        cremExt := ceilDiv k.tLeadMark k.tCycle / 2 ^ 12
        cphExt := 0 }

/-- R61, R65, R66, R144 (D6, D9): under every record that meets the constraint, `BURST t` with t at least 1 starts a burst
of ceil_div(t, `T_CYCLE`) cycles, and a tick of a burst counts as R66 says, whatever the size of the count and of the
cycle: neither wraps. `CREM` and `CPH` have the spec's widths; what they cannot hold under a record for which the spec
does not size them stands in their extensions (the model's choice, log 17), which are 0 where the widths suffice. Which
mark phase, and the bench, are the model's choice (log 5, log 6). -/
def Obligations.BurstFollowsTheRecord : Prop :=
  (∀ (k : Config) (t : Dur) (s : State), k.valid = true → t ≠ 0 → ∃ (p : Phase) (u : State), p.isMark = true ∧
    execIn k (.burst t) s = .next u ∧
    u = { s with
      regs := { s.regs with
        phase := p
        crem := BitVec.ofNat 12 (ceilDiv t.toNat k.tCycle)
        cremExt := ceilDiv t.toNat k.tCycle / 2 ^ 12
        cph := 0
        cphExt := 0
        srem := 0 }
      bench := some (s.bench.getD []) } ∧
    cyclesLeft u.regs = ceilDiv t.toNat k.tCycle ∧ 1 ≤ cyclesLeft u.regs ∧ tickIndex u.regs = 0 ∧
    (17 ≤ k.tCycle → u.regs.cremExt = 0)) ∧
  (∀ (k : Config) (io : Ports) (r : Registers), k.valid = true → io.rst = false → legal k r = true →
    r.phase.isMark = true →
    (tickIndex r + 1 < k.tCycle →
      tick k io r = setIndex (tickIndex r + 1) r ∧ tickIndex (tick k io r) = tickIndex r + 1 ∧
      cyclesLeft (tick k io r) = cyclesLeft r) ∧
    (tickIndex r + 1 = k.tCycle → 1 < cyclesLeft r →
      tick k io r = setCycles (cyclesLeft r - 1) (setIndex 0 r) ∧ tickIndex (tick k io r) = 0 ∧
      cyclesLeft (tick k io r) = cyclesLeft r - 1) ∧
    (tickIndex r + 1 = k.tCycle → cyclesLeft r = 1 → (tick k io r).phase ≠ r.phase) ∧
    tickIndex r < k.tCycle)

/-- R131, R120, R25: under every record that meets the constraint of R3, and no other condition on it, the wired block in
registers that R25 allows under that record answers a next state to every input, and its registers are again such: no run
from reset is refused or stuck, whatever the record. -/
def Obligations.EveryValidRecordRuns : Prop :=
  ∀ (k : Config), k.valid = true →
    legal k State.reset.regs = true ∧
    ∀ (io : Ports) (s : State), s.bench = none → legal k s.regs = true →
      ∃ s', blockTick k io s = .next s' ∧ s'.bench = none ∧ legal k s'.regs = true
end

