-- ==== Sys2Proof/Laws/State.lean ====
section
/-! SUPPORT. One lemma per field and update of the state and of the registers, so that no proof unfolds a record
update. -/

namespace Sys2Proof.Machine

section updatesOfState
variable (f : Registers → Registers) (w : BenchWord) (s : State)

@[simp] theorem State.onRegs_regs : (s.onRegs f).regs = f s.regs := rfl
@[simp] theorem State.onRegs_caller : (s.onRegs f).caller = s.caller := rfl
@[simp] theorem State.onRegs_bench : (s.onRegs f).bench = s.bench := rfl
@[simp] theorem State.onRegs_drawn : (s.onRegs f).drawn = s.drawn := rfl
@[simp] theorem State.onRegs_pending : (s.onRegs f).pending = s.pending := rfl
@[simp] theorem State.onBench_regs : s.onBench.regs = s.regs := rfl
@[simp] theorem State.onBench_caller : s.onBench.caller = s.caller := rfl
@[simp] theorem State.onBench_bench : s.onBench.bench = some s.pending := rfl
@[simp] theorem State.onBench_drawn : s.onBench.drawn = s.drawn := rfl
@[simp] theorem State.onBench_pending : s.onBench.pending = s.pending := rfl
@[simp] theorem State.push_regs : (s.push w).regs = s.regs := rfl
@[simp] theorem State.push_caller : (s.push w).caller = s.caller := rfl
@[simp] theorem State.push_bench : (s.push w).bench = some (w :: s.pending) := rfl
@[simp] theorem State.push_drawn : (s.push w).drawn = s.drawn := rfl
@[simp] theorem State.push_pending : (s.push w).pending = w :: s.pending := rfl

end updatesOfState

section updatesOfRegisters
variable (k : Config) (p : Phase) (d : Nat) (c : Cmd) (r : Registers)

@[simp] theorem setCycles_phase : (setCycles d r).phase = r.phase := rfl
@[simp] theorem setCycles_frame : (setCycles d r).frame = r.frame := rfl
@[simp] theorem setCycles_bitcnt : (setCycles d r).bitcnt = r.bitcnt := rfl
@[simp] theorem setCycles_crem : (setCycles d r).crem = BitVec.ofNat 12 d := rfl
@[simp] theorem setCycles_cph : (setCycles d r).cph = r.cph := rfl
@[simp] theorem setCycles_srem : (setCycles d r).srem = r.srem := rfl
@[simp] theorem setCycles_done : (setCycles d r).done = r.done := rfl
@[simp] theorem setCycles_cremExt : (setCycles d r).cremExt = d / 2 ^ 12 := rfl
@[simp] theorem setCycles_cphExt : (setCycles d r).cphExt = r.cphExt := rfl
@[simp] theorem setIndex_phase : (setIndex d r).phase = r.phase := rfl
@[simp] theorem setIndex_frame : (setIndex d r).frame = r.frame := rfl
@[simp] theorem setIndex_bitcnt : (setIndex d r).bitcnt = r.bitcnt := rfl
@[simp] theorem setIndex_crem : (setIndex d r).crem = r.crem := rfl
@[simp] theorem setIndex_cph : (setIndex d r).cph = BitVec.ofNat 5 d := rfl
@[simp] theorem setIndex_srem : (setIndex d r).srem = r.srem := rfl
@[simp] theorem setIndex_done : (setIndex d r).done = r.done := rfl
@[simp] theorem setIndex_cremExt : (setIndex d r).cremExt = r.cremExt := rfl
@[simp] theorem setIndex_cphExt : (setIndex d r).cphExt = d / 2 ^ 5 := rfl
@[simp] theorem enterMark_phase : (enterMark k p d r).phase = p := rfl
@[simp] theorem enterMark_frame : (enterMark k p d r).frame = r.frame := rfl
@[simp] theorem enterMark_bitcnt : (enterMark k p d r).bitcnt = r.bitcnt := rfl
@[simp] theorem enterMark_crem : (enterMark k p d r).crem = BitVec.ofNat 12 (cycles k d) := rfl
@[simp] theorem enterMark_cph : (enterMark k p d r).cph = 0 := rfl
@[simp] theorem enterMark_srem : (enterMark k p d r).srem = 0 := rfl
@[simp] theorem enterMark_done : (enterMark k p d r).done = r.done := rfl
@[simp] theorem enterMark_cremExt : (enterMark k p d r).cremExt = cycles k d / 2 ^ 12 := rfl
@[simp] theorem enterMark_cphExt : (enterMark k p d r).cphExt = 0 := rfl
@[simp] theorem enterSpace_phase : (enterSpace p d r).phase = p := rfl
@[simp] theorem enterSpace_frame : (enterSpace p d r).frame = r.frame := rfl
@[simp] theorem enterSpace_bitcnt : (enterSpace p d r).bitcnt = r.bitcnt := rfl
@[simp] theorem enterSpace_crem : (enterSpace p d r).crem = 0 := rfl
@[simp] theorem enterSpace_cph : (enterSpace p d r).cph = 0 := rfl
@[simp] theorem enterSpace_srem : (enterSpace p d r).srem = BitVec.ofNat 16 d := rfl
@[simp] theorem enterSpace_done : (enterSpace p d r).done = r.done := rfl
@[simp] theorem enterSpace_cremExt : (enterSpace p d r).cremExt = 0 := rfl
@[simp] theorem enterSpace_cphExt : (enterSpace p d r).cphExt = 0 := rfl
@[simp] theorem leaveSegment_phase : (leaveSegment r).phase = .idle := rfl
@[simp] theorem leaveSegment_frame : (leaveSegment r).frame = r.frame := rfl
@[simp] theorem leaveSegment_bitcnt : (leaveSegment r).bitcnt = r.bitcnt := rfl
@[simp] theorem leaveSegment_crem : (leaveSegment r).crem = 0 := rfl
@[simp] theorem leaveSegment_cph : (leaveSegment r).cph = 0 := rfl
@[simp] theorem leaveSegment_srem : (leaveSegment r).srem = 0 := rfl
@[simp] theorem leaveSegment_done : (leaveSegment r).done = r.done := rfl
@[simp] theorem leaveSegment_cremExt : (leaveSegment r).cremExt = 0 := rfl
@[simp] theorem leaveSegment_cphExt : (leaveSegment r).cphExt = 0 := rfl
@[simp] theorem assemble_phase : (assemble k c r).phase = r.phase := rfl
@[simp] theorem assemble_frame : (assemble k c r).frame = assembled k c := rfl
@[simp] theorem assemble_bitcnt : (assemble k c r).bitcnt = 32 := rfl
@[simp] theorem assemble_crem : (assemble k c r).crem = r.crem := rfl
@[simp] theorem assemble_cph : (assemble k c r).cph = r.cph := rfl
@[simp] theorem assemble_srem : (assemble k c r).srem = r.srem := rfl
@[simp] theorem assemble_done : (assemble k c r).done = r.done := rfl
@[simp] theorem assemble_cremExt : (assemble k c r).cremExt = r.cremExt := rfl
@[simp] theorem assemble_cphExt : (assemble k c r).cphExt = r.cphExt := rfl
@[simp] theorem shift_phase : (shift r).phase = r.phase := rfl
@[simp] theorem shift_frame : (shift r).frame = r.frame >>> 1 := rfl
@[simp] theorem shift_bitcnt : (shift r).bitcnt = r.bitcnt - 1 := rfl
@[simp] theorem shift_crem : (shift r).crem = r.crem := rfl
@[simp] theorem shift_cph : (shift r).cph = r.cph := rfl
@[simp] theorem shift_srem : (shift r).srem = r.srem := rfl
@[simp] theorem shift_done : (shift r).done = r.done := rfl
@[simp] theorem shift_cremExt : (shift r).cremExt = r.cremExt := rfl
@[simp] theorem shift_cphExt : (shift r).cphExt = r.cphExt := rfl
@[simp] theorem lowerDone_phase : (lowerDone r).phase = r.phase := rfl
@[simp] theorem lowerDone_frame : (lowerDone r).frame = r.frame := rfl
@[simp] theorem lowerDone_bitcnt : (lowerDone r).bitcnt = r.bitcnt := rfl
@[simp] theorem lowerDone_crem : (lowerDone r).crem = r.crem := rfl
@[simp] theorem lowerDone_cph : (lowerDone r).cph = r.cph := rfl
@[simp] theorem lowerDone_srem : (lowerDone r).srem = r.srem := rfl
@[simp] theorem lowerDone_done : (lowerDone r).done = false := rfl
@[simp] theorem lowerDone_cremExt : (lowerDone r).cremExt = r.cremExt := rfl
@[simp] theorem lowerDone_cphExt : (lowerDone r).cphExt = r.cphExt := rfl

end updatesOfRegisters

end Sys2Proof.Machine
end

