-- ==== Sys2Proof/Laws/Ops.lean ====
section
/-! SUPPORT. One lemma per shared operation that says once what it can do; later proofs cite these. -/

namespace Sys2Proof.Machine

/-- The record the host's fixed names run with meets R3's constraint. -/
@[simp] theorem cfg_valid : cfg.valid = true := by decide

section valuesOfTheRecord

@[simp] theorem cfg_tHigh : cfg.tHigh = 10 := rfl
@[simp] theorem cfg_tLow : cfg.tLow = 16 := rfl
@[simp] theorem cfg_tCycle : cfg.tCycle = 26 := rfl
@[simp] theorem cfg_tLeadMark : cfg.tLeadMark = 9000 := rfl
@[simp] theorem cfg_tLeadSpace : cfg.tLeadSpace = 4500 := rfl
@[simp] theorem cfg_tBitMark : cfg.tBitMark = 560 := rfl
@[simp] theorem cfg_tOneSpace : cfg.tOneSpace = 565 := rfl
@[simp] theorem cfg_tZeroSpace : cfg.tZeroSpace = 1690 := rfl
@[simp] theorem cfg_tStopMark : cfg.tStopMark = 560 := rfl
@[simp] theorem cfg_remoteId : cfg.remoteId = 1#8 := rfl
@[simp] theorem cycles_cfg_lead : cycles cfg 9000 = 347 := by decide
@[simp] theorem cycles_cfg_bit : cycles cfg 560 = 22 := by decide
@[simp] theorem maxCycles_cfg : maxCycles cfg = 347 := by decide
@[simp] theorem maxSpace_cfg : maxSpace cfg = 4500 := by decide
@[simp] theorem cycles_cfg_max : cycles cfg 65535 = 2521 := by decide

end valuesOfTheRecord

/-- ceil_div is the least q with q * b at least a (R5). -/
theorem ceilDiv_le_iff {a b q : Nat} (hb : 1 ≤ b) : ceilDiv a b ≤ q ↔ a ≤ q * b := by
  unfold ceilDiv
  rw [← Nat.lt_succ_iff, Nat.div_lt_iff_lt_mul hb, Nat.succ_mul]
  omega

theorem le_ceilDiv_mul {a b : Nat} (hb : 1 ≤ b) : a ≤ ceilDiv a b * b := (ceilDiv_le_iff hb).1 le_rfl

theorem ceilDiv_zero {b : Nat} (hb : 1 ≤ b) : ceilDiv 0 b = 0 := by
  have := (ceilDiv_le_iff (a := 0) (q := 0) hb).2 (by simp)
  omega

theorem ceilDiv_pos {a b : Nat} (hb : 1 ≤ b) (ha : 1 ≤ a) : 1 ≤ ceilDiv a b := by
  by_contra h
  have : a ≤ 0 * b := (ceilDiv_le_iff hb).1 (by omega)
  omega

/-- The cycle count of any 16-bit duration fits `CREM` (R14). -/
theorem cycles_cfg_le (t : Dur) : cycles cfg t.toNat ≤ 2521 :=
  (ceilDiv_le_iff (by decide)).2 (by have := t.isLt; simp only [cfg_tCycle]; omega)

/-- The count that `setCycles` stores is read back as it stands, whatever its size (R61, R144). -/
@[simp] theorem cyclesLeft_setCycles (n : Nat) (r : Registers) : cyclesLeft (setCycles n r) = n := by
  simp only [cyclesLeft, setCycles_crem, setCycles_cremExt, BitVec.toNat_ofNat]
  exact Nat.mod_add_div n (2 ^ 12)

/-- The index that `setIndex` stores is read back as it stands, whatever its size (R66). -/
@[simp] theorem tickIndex_setIndex (n : Nat) (r : Registers) : tickIndex (setIndex n r) = n := by
  simp only [tickIndex, setIndex_cph, setIndex_cphExt, BitVec.toNat_ofNat]
  exact Nat.mod_add_div n (2 ^ 5)

@[simp] theorem cyclesLeft_setIndex (n : Nat) (r : Registers) : cyclesLeft (setIndex n r) = cyclesLeft r := rfl
@[simp] theorem tickIndex_setCycles (n : Nat) (r : Registers) : tickIndex (setCycles n r) = tickIndex r := rfl

@[simp] theorem cyclesLeft_enterMark (k : Config) (p : Phase) (d : Nat) (r : Registers) :
    cyclesLeft (enterMark k p d r) = cycles k d := cyclesLeft_setCycles _ _

@[simp] theorem tickIndex_enterMark (k : Config) (p : Phase) (d : Nat) (r : Registers) :
    tickIndex (enterMark k p d r) = 0 := rfl

/-- `CREM` holds a count of at most 4095 by itself (R14). -/
theorem cyclesLeft_small {r : Registers} (h : cyclesLeft r ≤ 4095) : r.cremExt = 0 ∧ cyclesLeft r = r.crem.toNat := by
  unfold cyclesLeft at *
  omega

/-- `CPH` holds an index of at most 31 by itself (R15). -/
theorem tickIndex_small {r : Registers} (h : tickIndex r ≤ 31) : r.cphExt = 0 ∧ tickIndex r = r.cph.toNat := by
  unfold tickIndex at *
  omega

/-- R21 as a proposition. -/
theorem irOut_iff {k : Config} {r : Registers} :
    irOut k r = true ↔ r.phase.isMark = true ∧ tickIndex r < k.tHigh := by
  simp [irOut]

/-- The last tick of a burst, as a proposition (R66's third arm). -/
theorem lastBurstTick_iff_le {k : Config} {r : Registers} :
    lastBurstTick k r = true ↔ k.tCycle - 1 ≤ tickIndex r ∧ cyclesLeft r ≤ 1 := by
  simp [lastBurstTick]

/-- R25 (b) read as inequalities. -/
theorem markOk_iff {k : Config} {n : Nat} {r : Registers} :
    markOk k n r = true ↔ 1 ≤ cyclesLeft r ∧ cyclesLeft r ≤ n ∧ tickIndex r < k.tCycle ∧ r.srem = 0 := by
  simp [markOk, and_assoc]

/-- R25 (c) read as inequalities. -/
theorem spaceOk_iff {n : Nat} {r : Registers} :
    spaceOk n r = true ↔ 1 ≤ r.srem.toNat ∧ r.srem.toNat ≤ n ∧ r.crem = 0 ∧ r.cph = 0 ∧ r.cremExt = 0 ∧ r.cphExt = 0 := by
  simp [spaceOk, noBurst, and_assoc]

/-- In a burst whose counters are in range, under every record, the last tick is the last of the last cycle (R89). -/
theorem lastBurstTick_iff_eq {k : Config} {n : Nat} {r : Registers} (h : markOk k n r = true) :
    lastBurstTick k r = true ↔ tickIndex r = k.tCycle - 1 ∧ cyclesLeft r = 1 := by
  obtain ⟨h1, -, h3, -⟩ := markOk_iff.1 h
  rw [lastBurstTick_iff_le]
  omega

/-- Under the source's values `CREM` and `CPH` hold the counters of a burst in range by themselves. -/
theorem markOk_ext {n : Nat} {r : Registers} (h : markOk cfg n r = true) (hn : n ≤ 4095) :
    r.cremExt = 0 ∧ cyclesLeft r = r.crem.toNat ∧ r.cphExt = 0 ∧ tickIndex r = r.cph.toNat := by
  obtain ⟨-, h2, h3, -⟩ := markOk_iff.1 h
  rw [cfg_tCycle] at h3
  obtain ⟨a, b⟩ := cyclesLeft_small (r := r) (by omega)
  obtain ⟨c, d⟩ := tickIndex_small (r := r) (by omega)
  exact ⟨a, b, c, d⟩

/-- Under the source's values the last tick of a burst is the one with `CPH` = 25 and `CREM` = 1 (R89). -/
theorem lastBurstTick_iff {n : Nat} {r : Registers} (h : markOk cfg n r = true) (hn : n ≤ 4095) :
    lastBurstTick cfg r = true ↔ r.cph = 25 ∧ r.crem = 1 := by
  obtain ⟨-, hm, -, hi⟩ := markOk_ext h hn
  have hc : r.cph = 25 ↔ r.cph.toNat = 25 := BitVec.toNat_inj.symm
  have hr : r.crem = 1 ↔ r.crem.toNat = 1 := BitVec.toNat_inj.symm
  rw [lastBurstTick_iff_eq h, hc, hr, hm, hi, cfg_tCycle]

/-- Counting up inside a cycle that `CPH` holds is R66's first arm as it stands. -/
theorem setIndex_succ {r : Registers} (h : tickIndex r < 31) :
    setIndex (tickIndex r + 1) r = { r with cph := r.cph + 1 } := by
  obtain ⟨hx, hi⟩ := tickIndex_small (r := r) (by omega)
  have e : (tickIndex r + 1) / 2 ^ 5 = r.cphExt := by omega
  have e' : BitVec.ofNat 5 (tickIndex r + 1) = r.cph + 1 := by rw [hi, BitVec.ofNat_add, BitVec.ofNat_toNat]; simp
  unfold setIndex
  rw [e, e']

/-- Counting a cycle down that `CREM` holds is R66's second arm as it stands. -/
theorem setCycles_pred {r : Registers} (h1 : 1 ≤ cyclesLeft r) (h : cyclesLeft r ≤ 4095) (hx : r.cphExt = 0) :
    setCycles (cyclesLeft r - 1) (setIndex 0 r) = { r with crem := r.crem - 1, cph := 0 } := by
  obtain ⟨hy, hc⟩ := cyclesLeft_small h
  have e : (cyclesLeft r - 1) / 2 ^ 12 = r.cremExt := by omega
  have e' : BitVec.ofNat 12 (cyclesLeft r - 1) = r.crem - 1 := by
    refine BitVec.eq_of_toNat_eq ?_
    have := r.crem.isLt
    rw [BitVec.toNat_sub_of_le (by rw [BitVec.le_def]; simpa using (by omega : 1 ≤ r.crem.toNat)), BitVec.toNat_ofNat]
    simp
    omega
  simp only [setCycles, setIndex, e, e', hx]
  rfl

/-- In a space whose counter is in range, the last tick is the one with `SREM` = 1 (R89). -/
theorem lastSpaceTick_iff {n : Nat} {r : Registers} (h : spaceOk n r = true) :
    lastSpaceTick r = true ↔ r.srem = 1 := by
  obtain ⟨h1, -⟩ := spaceOk_iff.1 h
  have hs : r.srem = 1 ↔ r.srem.toNat = 1 := BitVec.toNat_inj.symm
  rw [hs]
  simp only [lastSpaceTick, Bool.not_eq_true', decide_eq_false_iff_not]
  omega

/-- What one tick of the wired block answers: a bad record and an unreachable value are refused, reset puts everything
to its reset value, and any other tick is the step function. -/
theorem blockTick_cases (k : Config) (io : Ports) (s : State) :
    (k.valid = false ∧ blockTick k io s = .refused .badParameters) ∨
    (k.valid = true ∧ io.rst = true ∧ blockTick k io s = .next { s with regs := Registers.reset, bench := none }) ∨
    (k.valid = true ∧ io.rst = false ∧ legal k s.regs = true ∧ blockTick k io s = .next (s.onRegs (tick k io))) ∨
    (k.valid = true ∧ io.rst = false ∧ legal k s.regs = false ∧ blockTick k io s = .refused .unreachableState) := by
  cases hk : k.valid
  · exact .inl ⟨rfl, by simp [blockTick, hk]⟩
  · cases hr : io.rst
    · cases hl : legal k s.regs <;> simp [blockTick, hk, hr, hl]
    · simp [blockTick, hk, hr, tick]

/-- A tick of the wired block in legal registers without reset is the step function. -/
theorem blockTick_legal {io : Ports} {s : State} (hr : io.rst = false) (hl : legal cfg s.regs = true) :
    blockTick cfg io s = .next (s.onRegs (tick cfg io)) := by
  simp [blockTick, hr, hl]

/-- The host's `exec` is the operations of the build `cfg`. -/
theorem exec_eq_execIn (i : Instr) (s : State) : exec i s = execIn cfg i s := by cases i <;> rfl

/-- Every operation a caller can issue presents its command to the block, under every record (R42). -/
theorem execIn_command {k : Config} {i : Instr} {c : Cmd} (h : i.command? k = some c) (s : State) :
    execIn k i s = blockTick k (Ports.present c) s := by
  cases i <;> cases h <;> rfl

/-- Every CMD8 word, read by the decoder, stands for that command, under every record: codes that coincide too (R43). -/
theorem decodeCmd8_command (k : Config) (c : Cmd) : (decodeCmd8 k c).command? k = some c := by
  unfold decodeCmd8
  split_ifs <;> simp_all [Instr.command?]

/-- Every CMD8 word, read by the decoder, is presented to the block as that command (R42, R43). -/
theorem execIn_decodeCmd8 (k : Config) (c : Cmd) (s : State) :
    execIn k (decodeCmd8 k c) s = blockTick k (Ports.present c) s := execIn_command (decodeCmd8_command k c) s

/-- While a transmission runs, `start` and `cmd` reach no register (R93). -/
theorem tick_busy_ports {k : Config} {io io' : Ports} {r : Registers} (h : io.rst = false) (h' : io'.rst = false)
    (hb : r.phase ≠ .idle) : tick k io r = tick k io' r := by
  unfold tick
  cases hp : r.phase <;> simp_all

/-- The step function in a phase other than `IDLE`: the segment counts on, or ends. -/
theorem tick_running {k : Config} {io : Ports} {r : Registers} (h : io.rst = false) (hr : running k r = true) :
    tick k io r = countOn k r := by
  unfold running at hr
  unfold tick countOn
  cases hp : r.phase <;> simp_all

/-- `issue` at its first word: refused where it is no operation, else that operation, and then the next word if the
operation used no time. -/
theorem issue_cons {k : Config} {w : BenchWord} {i : Instr} (ws : List BenchWord) (s : State)
    (h : decodeBench k w = .ok i) :
    issue k (w :: ws) s =
      match execIn k i { s with bench := some ws } with
      | .next s' => if takesTime i then .next s' else issue k ws s'
      | .fault f => .fault f
      | .refused why => .refused why := by
  simp only [issue, h] <;> rfl

end Sys2Proof.Machine
end

