-- ==== Sys2Proof/Laws/Legal.lean ====
section
/-! SUPPORT. What the legality check says phase by phase (R25), and what one tick of legal registers can do: one of
eleven cases, said once. -/

namespace Sys2Proof.Machine

variable {k : Config} {r : Registers}

/-- R25 (h). -/
theorem legal_done (h : legal k r = true) (hp : r.phase ≠ .idle) : r.done = false := by
  cases hd : r.done
  · rfl
  · simp [legal, hd, hp] at h

/-- R25 (b). -/
theorem legal_mark (h : legal k r = true) (hp : r.phase.isMark = true) : markOk k (maxCycles k) r = true := by
  cases hq : r.phase <;> simp_all [legal, Phase.isMark]

/-- R25 (c). -/
theorem legal_space (h : legal k r = true) (hp : r.phase.isSpace = true) : spaceOk (maxSpace k) r = true := by
  cases hq : r.phase <;> simp_all [legal, Phase.isSpace]

/-- R25 (g). -/
theorem legal_idle (h : legal k r = true) (hp : r.phase = .idle) :
    r = { Registers.reset with done := r.done } := by
  obtain ⟨p, f, b, cr, ch, sr, d, x, y⟩ := r
  simp_all [legal, noBurst, Registers.reset]

/-- R25 (f). -/
theorem legal_stop (h : legal k r = true) (hp : r.phase = .stopMark) : r.bitcnt = 0 ∧ r.frame = 0 := by
  simp_all [legal]

/-- R25 (d). -/
theorem legal_lead (h : legal k r = true) (hp : r.phase = .leadMark ∨ r.phase = .leadSpace) :
    r.bitcnt = 32 ∧ frameOk k 0 r = true := by
  rcases hp with hp | hp <;> simp_all [legal]

/-- R25 (e). -/
theorem legal_bit (h : legal k r = true) (hp : r.phase = .bitMark ∨ r.phase = .bitSpace) :
    1 ≤ r.bitcnt.toNat ∧ r.bitcnt.toNat ≤ 32 ∧ frameOk k (32 - r.bitcnt.toNat) r = true := by
  rcases hp with hp | hp <;> simp_all [legal]

/-- One tick, without reset, of registers that R25 allows. -/
theorem tick_legal_cases {io : Ports} (hr : io.rst = false) (hl : legal cfg r = true) :
    (r.phase = .idle ∧ io.start = true ∧ tick cfg io r = accept cfg io.cmd r) ∨
    (r.phase = .idle ∧ io.start = false ∧ tick cfg io r = lowerDone r) ∨
    (r.phase.isMark = true ∧ r.cph.toNat < 25 ∧ tick cfg io r = { r with cph := r.cph + 1 }) ∨
    (r.phase.isMark = true ∧ r.cph = 25 ∧ 1 < r.crem.toNat ∧
      tick cfg io r = { r with crem := r.crem - 1, cph := 0 }) ∨
    (r.phase.isSpace = true ∧ 1 < r.srem.toNat ∧ tick cfg io r = { r with srem := r.srem - 1 }) ∨
    (r.phase = .leadMark ∧ r.cph = 25 ∧ r.crem = 1 ∧ tick cfg io r = endLeadMark cfg r) ∨
    (r.phase = .leadSpace ∧ r.srem = 1 ∧ tick cfg io r = endLeadSpace cfg r) ∨
    (r.phase = .bitMark ∧ r.cph = 25 ∧ r.crem = 1 ∧ tick cfg io r = endBitMark cfg r) ∨
    (r.phase = .bitSpace ∧ r.srem = 1 ∧ 1 < r.bitcnt.toNat ∧
      tick cfg io r = enterMark cfg .bitMark 560 (shift r)) ∨
    (r.phase = .bitSpace ∧ r.srem = 1 ∧ r.bitcnt = 1 ∧
      tick cfg io r = enterMark cfg .stopMark 560 (shift r)) ∨
    (r.phase = .stopMark ∧ r.cph = 25 ∧ r.crem = 1 ∧ tick cfg io r = endStopMark r) := by
  have mark : ∀ hp : r.phase.isMark = true, lastBurstTick cfg r = false →
      (r.cph.toNat < 25 ∧ countBurst cfg r = { r with cph := r.cph + 1 }) ∨
      (r.cph = 25 ∧ 1 < r.crem.toNat ∧ countBurst cfg r = { r with crem := r.crem - 1, cph := 0 }) := by
    intro hp hq
    have hm := legal_mark hl hp
    obtain ⟨h1, h2, h3, -⟩ := markOk_iff.1 hm
    rw [maxCycles_cfg] at h2
    obtain ⟨-, hc, hx, hi⟩ := markOk_ext hm (by simp)
    have hn := mt (lastBurstTick_iff_le (k := cfg) (r := r)).2 (by simp [hq])
    rw [cfg_tCycle] at h3 hn
    by_cases ht : tickIndex r < 25
    · exact .inl ⟨by omega, by rw [countBurst, cfg_tCycle, if_pos ht, setIndex_succ (by omega)]⟩
    · refine .inr ⟨BitVec.eq_of_toNat_eq (by simp; omega), by omega, ?_⟩
      rw [countBurst, cfg_tCycle, if_neg ht, setCycles_pred h1 (by omega) hx]
  have last : ∀ hp : r.phase.isMark = true, lastBurstTick cfg r = true → r.cph = 25 ∧ r.crem = 1 :=
    fun hp => (lastBurstTick_iff (legal_mark hl hp) (by simp)).1
  have space : lastSpaceTick r = false → 1 < r.srem.toNat := by simp [lastSpaceTick]
  have lastS : ∀ hp : r.phase.isSpace = true, lastSpaceTick r = true → r.srem = 1 :=
    fun hp => (lastSpaceTick_iff (legal_space hl hp)).1
  cases hp : r.phase <;> simp only [Phase.isMark, Phase.isSpace, tick, hr, hp] at mark last lastS ⊢
  · cases hs : io.start <;> simp
  · cases hq : lastBurstTick cfg r <;> simp [hq] at mark last ⊢
    · rcases mark with ⟨h, e⟩ | ⟨h, h', e⟩ <;> simp [*]
    · exact .inr (.inr last)
  · cases hq : lastSpaceTick r <;> simp [hq] at space lastS ⊢
    · exact .inl ⟨space, by simp [countSpace, hp]⟩
    · exact .inr lastS
  · cases hq : lastBurstTick cfg r <;> simp [hq] at mark last ⊢
    · rcases mark with ⟨h, e⟩ | ⟨h, h', e⟩ <;> simp [*]
    · exact .inr (.inr last)
  · cases hq : lastSpaceTick r <;> simp [hq] at space lastS ⊢
    · exact .inl ⟨space, by simp [countSpace, hp]⟩
    · obtain ⟨h1, h2, -⟩ := legal_bit hl (.inr hp)
      by_cases hb : 1 < r.bitcnt.toNat
      · simp [endBitSpace, lastS, hb]
      · have : r.bitcnt = 1 := BitVec.eq_of_toNat_eq (by simp; omega)
        simp [endBitSpace, lastS, this]
  · cases hq : lastBurstTick cfg r <;> simp [hq] at mark last ⊢
    · rcases mark with ⟨h, e⟩ | ⟨h, h', e⟩ <;> simp [*]
    · exact .inr (.inr last)

end Sys2Proof.Machine
end

