-- ==== Sys2Proof/Laws/Frame.lean ====
section
/-! SUPPORT. The frame word bit by bit, and what `frameOk` says: the frame of some command, shifted. -/

namespace Sys2Proof.Machine

/-- R44, bit by bit. -/
theorem frameOf_getLsbD (k : Config) (c : Cmd) (d : BitVec 16) (i : Nat) :
    (frameOf k c d).getLsbD i =
      if i < 16 then d.getLsbD i else if i < 24 then c.getLsbD (i - 16) else k.remoteId.getLsbD (i - 24) := by
  simp only [frameOf, BitVec.getLsbD_or, BitVec.getLsbD_shiftLeft, BitVec.getLsbD_setWidth]
  have hd := fun h : 16 ≤ i => BitVec.getLsbD_of_ge d i h
  have hc := fun h : 8 ≤ i - 16 => BitVec.getLsbD_of_ge c (i - 16) h
  have hr := fun h : 8 ≤ i - 24 => BitVec.getLsbD_of_ge k.remoteId (i - 24) h
  by_cases h1 : i < 16
  · simp [h1, show i < 32 by omega, show i < 24 by omega]
  · by_cases h2 : i < 24
    · simp [h1, h2, hd (by omega), show i < 32 by omega, show i - 16 < 32 by omega]
    · simp only [h1, h2, hd (by omega), hc (by omega)]
      by_cases h3 : i < 32
      · simp [h3, show i - 24 < 32 by omega]
      · simp [h3, hr (by omega)]

/-- The bits of the command field, shifted right n times. -/
theorem commandMask_getLsbD (n i : Nat) :
    ((0x00FF0000#32) >>> n).getLsbD i = (decide (16 ≤ n + i) && decide (n + i < 24)) := by
  rw [BitVec.getLsbD_ushiftRight]
  have key : ∀ j, j < 32 → (0x00FF0000#32).getLsbD j = (decide (16 ≤ j) && decide (j < 24)) := by decide
  by_cases h : n + i < 32
  · exact key _ h
  · rw [BitVec.getLsbD_of_ge _ _ (by omega)]
    simp; omega

/-- `frameOk` is R25's "`FRAME` is the assembled frame of some command, shifted right n times". -/
theorem frameOk_iff {k : Config} {n : Nat} {r : Registers} :
    frameOk k n r = true ↔ ∃ c : Cmd, r.frame = assembled k c >>> n := by
  have bit : ∀ (c : Cmd) (i : Nat), (assembled k c >>> n).getLsbD i =
      if 16 ≤ n + i ∧ n + i < 24 then c.getLsbD (n + i - 16) else (assembled k 0 >>> n).getLsbD i := by
    intro c i
    simp only [BitVec.getLsbD_ushiftRight, assembled, frameOf_getLsbD]
    by_cases h1 : n + i < 16
    · simp [h1, show ¬ (16 ≤ n + i ∧ n + i < 24) by omega]
    · by_cases h2 : n + i < 24
      · simp [h1, h2, show 16 ≤ n + i ∧ n + i < 24 by omega]
      · simp [h1, h2]
  simp only [frameOk, beq_iff_eq]
  constructor
  · intro h
    refine ⟨((r.frame <<< n) >>> 16).setWidth 8, BitVec.eq_of_getLsbD_eq fun i hi => ?_⟩
    have hb := congrArg (BitVec.getLsbD · i) h
    simp only [BitVec.getLsbD_and, BitVec.getLsbD_not, commandMask_getLsbD, hi, decide_true, Bool.true_and] at hb
    rw [bit]
    by_cases hm : 16 ≤ n + i ∧ n + i < 24
    · rw [if_pos hm]
      simp only [BitVec.getLsbD_setWidth, BitVec.getLsbD_ushiftRight, BitVec.getLsbD_shiftLeft]
      have e : 16 + (n + i - 16) - n = i := by omega
      simp [e, show n + i - 16 < 8 by omega, show 16 + (n + i - 16) < 32 by omega,
        show ¬ 16 + (n + i - 16) < n by omega]
    · rw [if_neg hm, ← hb]
      have : (decide (16 ≤ n + i) && decide (n + i < 24)) = false := by simpa using hm
      simp [this]
  · rintro ⟨c, hc⟩
    refine BitVec.eq_of_getLsbD_eq fun i hi => ?_
    simp only [BitVec.getLsbD_and, BitVec.getLsbD_not, commandMask_getLsbD, hi, decide_true, Bool.true_and, hc]
    rw [bit]
    by_cases hm : 16 ≤ n + i ∧ n + i < 24
    · rw [if_pos hm]
      have z : (assembled k 0 >>> n).getLsbD i = false := by
        simp only [BitVec.getLsbD_ushiftRight, assembled, frameOf_getLsbD]
        simp [hm.2, show ¬ n + i < 16 by omega]
      rw [z]
      simp [hm.1, hm.2]
    · rw [if_neg hm]
      have : (decide (16 ≤ n + i) && decide (n + i < 24)) = false := by simpa using hm
      simp [this]

/-- SHIFT keeps `frameOk`, one place further (R81). -/
theorem frameOk_shift {k : Config} {n : Nat} {r : Registers} (h : frameOk k n r = true) :
    frameOk k (n + 1) (shift r) = true := by
  obtain ⟨c, hc⟩ := frameOk_iff.1 h
  exact frameOk_iff.2 ⟨c, by simp [hc, ← BitVec.shiftRight_add]⟩

/-- A frame shifted right 32 times is 0 (R81). -/
theorem frame_after_all_shifts (f : FrameWord) : f >>> 32 = 0 := by
  refine BitVec.eq_of_getLsbD_eq fun i hi => ?_
  simp

end Sys2Proof.Machine
end

