-- ==== Sys2Proof/Laws/Step.lean ====
section
/-! SUPPORT. What a step can do, said once: the wired block, and the bench. -/

namespace Sys2Proof.Machine

/-- A step of the block as wired, under every record, is one tick under the caller's ports, whatever they are. -/
theorem stepTick_wired {k : Config} {s : State} (hb : s.bench = none) :
    stepTick k s = blockTick k (s.portsIn k) { s with caller := s.restIn k } := by
  unfold stepTick stepWith
  cases hr : (s.portsIn k).rst <;> simp only [hb, Bool.false_eq_true, if_true, if_false]
  cases hs : (s.portsIn k).start
  · simp
  · have hp : s.portsIn k = Ports.present (s.portsIn k).cmd := by
      cases h : s.portsIn k
      simp_all [Ports.present]
    simp only [if_true, execIn_decodeCmd8]
    rw [← hp]

/-- The same of the host's `step`. -/
theorem step_wired {s : State} (hb : s.bench = none) :
    step s = blockTick cfg s.ports { s with caller := s.rest } := stepTick_wired hb

/-- A step of the block as wired, in legal registers without reset. -/
theorem step_wired_legal {s : State} (hb : s.bench = none) (hr : s.ports.rst = false)
    (hl : legal cfg s.regs = true) :
    step s = .next { s with regs := tick cfg s.ports s.regs, caller := s.rest } := by
  rw [step_wired hb]
  exact blockTick_legal (s := { s with caller := s.rest }) hr hl

/-- A step on the bench, without reset. -/
theorem step_bench {s : State} {ws : List BenchWord} (hb : s.bench = some ws) (hr : s.ports.rst = false) :
    step s = benchStep cfg ws { s with caller := s.rest } := by
  simp [step, stepTick, stepWith, hr, hb]

end Sys2Proof.Machine
end

