-- ==== Sys2Proof/Laws/Bench.lean ====
section
/-! SUPPORT. The bench: which operations its words are, that they always complete, and the counters a started segment
holds. -/

namespace Sys2Proof.Machine

theorem markAfter_isMark (r : Registers) : (markAfter r).isMark = true := by
  cases h : r.phase <;> simp only [markAfter, h] <;> try rfl
  by_cases hb : r.bitcnt = 0
  · rw [if_pos hb]; rfl
  · rw [if_neg hb]; rfl

theorem spaceAfter_isSpace (r : Registers) : (spaceAfter r).isSpace = true := by
  cases h : r.phase <;> simp [spaceAfter, h, Phase.isSpace]

/-- The phase of a mark phase is not `IDLE`. -/
theorem Phase.isMark_ne_idle {p : Phase} (h : p.isMark = true) : p ≠ .idle := by
  rintro rfl
  cases h

theorem Phase.isSpace_ne_idle {p : Phase} (h : p.isSpace = true) : p ≠ .idle := by
  rintro rfl
  cases h

/-- No bench word is a command: a command needs the `cmd` port (R41). -/
theorem decodeBench_command {k : Config} {w : BenchWord} {i : Instr} (h : decodeBench k w = .ok i) :
    i.command? k = none := by
  cases w with
  | seg17 w =>
    simp only [decodeBench, decodeSeg17, Except.ok.injEq] at h
    split at h <;> subst h <;> rfl
  | frame32 w =>
    simp only [decodeBench] at h
    unfold decodeFrame32 at h
    split_ifs at h <;> cases h
    rfl
  | wire1 b =>
    simp only [decodeBench, decodeWire1, Except.ok.injEq] at h
    split at h <;> subst h <;> rfl
  | shift => cases h; rfl
  | leader => cases h; rfl
  | stop => cases h; rfl

/-- Every operation that no caller can issue completes, in every state. -/
theorem execIn_internal_next {k : Config} {i : Instr} (h : i.command? k = none) (s : State) :
    ∃ t, execIn k i s = .next t := by
  cases i with
  | send _ => cases h
  | menu | play | left | right | up | down => cases h
  | shift =>
    by_cases hb : s.regs.bitcnt = 0
    · exact ⟨_, by simp only [execIn, execShift, hb, if_true]; rfl⟩
    · exact ⟨_, by simp only [execIn, execShift, hb, if_false]; rfl⟩
  | burst _ | space _ | assemble _ _ | bit1 | bit0 | leader | stop => exact ⟨_, rfl⟩

/-- A burst of a duration in 1 .. 65535, once started, holds its counters in range (R14, R65). -/
theorem enterMark_bench {p : Phase} (hp : p.isMark = true) {d : Nat} (h0 : d ≠ 0) (h1 : d ≤ 65535) {r : Registers}
    (hd : r.done = false) : benchLegal cfg (enterMark cfg p d r) = true := by
  have hc : cycles cfg d ≤ 2521 := (ceilDiv_le_iff (by decide)).2 (by rw [cfg_tCycle]; omega)
  have hc1 : 1 ≤ cycles cfg d := ceilDiv_pos (by decide) (by omega)
  have hm : markOk cfg (cycles cfg 65535) (enterMark cfg p d r) = true := by
    rw [markOk_iff]
    simp only [cyclesLeft_enterMark, tickIndex_enterMark, enterMark_srem, cycles_cfg_max, cfg_tCycle]
    exact ⟨hc1, hc, by decide, trivial⟩
  cases p <;> first | (cases hp; done) | simpa [benchLegal, hd] using hm

/-- A space of a duration in 1 .. 65535, once started, holds its counter in range (R16, R87). -/
theorem enterSpace_bench {p : Phase} (hp : p.isSpace = true) {d : Nat} (h0 : d ≠ 0) (h1 : d ≤ 65535) {r : Registers}
    (hd : r.done = false) : benchLegal cfg (enterSpace p d r) = true := by
  have hm : spaceOk 65535 (enterSpace p d r) = true := by
    rw [spaceOk_iff]
    simp only [enterSpace_crem, enterSpace_cph, enterSpace_cremExt, enterSpace_cphExt, enterSpace_srem,
      BitVec.toNat_ofNat]
    rw [Nat.mod_eq_of_lt (by omega)]
    exact ⟨by omega, h1, trivial, trivial, trivial, trivial⟩
  cases p <;> first | (cases hp; done) | simpa [benchLegal, hd] using hm

end Sys2Proof.Machine
end

