-- ==== Sys2Proof/Laws/Words.lean ====
section
/-! SUPPORT. The words bit by bit, and what the decoder of each format reads from them. -/

namespace Sys2Proof

/-- SEG17, a burst (R48): bit 16 is 1, the duration below it. -/
theorem Seg.word_burst_getLsbD (t : Dur) (i : Nat) :
    (Seg.burst t).word.getLsbD i = if i < 16 then t.getLsbD i else decide (i = 16) := by
  show (1#1 ++ t : BitVec (1 + 16)).getLsbD i = _
  rw [BitVec.getLsbD_append]
  by_cases h : i < 16
  · simp [h]
  · simp [h]; omega

/-- SEG17, a space (R48): bit 16 is 0, the duration below it. -/
theorem Seg.word_space_getLsbD (t : Dur) (i : Nat) :
    (Seg.space t).word.getLsbD i = if i < 16 then t.getLsbD i else false := by
  show (0#1 ++ t : BitVec (1 + 16)).getLsbD i = _
  rw [BitVec.getLsbD_append]
  by_cases h : i < 16 <;> simp [h]

/-- FRAME32 (R44): the three fields. -/
theorem frame32_getLsbD (k : Config) (c : Cmd) (d : BitVec 16) (i : Nat) :
    (frame32 k c d).getLsbD i =
      if i < 16 then d.getLsbD i else if i < 24 then c.getLsbD (i - 16) else k.remoteId.getLsbD (i - 24) := by
  show (k.remoteId ++ c ++ d : BitVec (8 + 8 + 16)).getLsbD i = _
  rw [BitVec.getLsbD_append, BitVec.getLsbD_append]
  by_cases h : i < 16
  · simp [h]
  · by_cases h2 : i < 24
    · simp [h, h2, show i - 16 < 8 by omega]
    · simp [h, h2, show ¬ i - 16 < 8 by omega, show i - 16 - 8 = i - 24 by omega]

theorem decodeSeg17_burst (t : Dur) : decodeSeg17 (Seg.burst t).word = .burst t := by
  have h : (Seg.burst t).word.extractLsb' 0 16 = t := BitVec.eq_of_getLsbD_eq fun i hi => by
    rw [BitVec.getLsbD_extractLsb', Seg.word_burst_getLsbD]
    simp [hi]
  rw [decodeSeg17, Seg.word_burst_getLsbD, h]
  rfl

theorem decodeSeg17_space (t : Dur) : decodeSeg17 (Seg.space t).word = .space t := by
  have h : (Seg.space t).word.extractLsb' 0 16 = t := BitVec.eq_of_getLsbD_eq fun i hi => by
    rw [BitVec.getLsbD_extractLsb', Seg.word_space_getLsbD]
    simp [hi]
  rw [decodeSeg17, Seg.word_space_getLsbD, h]
  rfl

theorem decodeFrame32_frame32 (k : Config) (c : Cmd) :
    decodeFrame32 k (frame32 k c k.deviceId) = .ok (.assemble c k.deviceId) := by
  have h1 : (frame32 k c k.deviceId).extractLsb' 24 8 = k.remoteId := BitVec.eq_of_getLsbD_eq fun i hi => by
    rw [BitVec.getLsbD_extractLsb', frame32_getLsbD]
    simp [hi, show ¬ 24 + i < 16 by omega]
  have h2 : (frame32 k c k.deviceId).extractLsb' 16 8 = c := BitVec.eq_of_getLsbD_eq fun i hi => by
    rw [BitVec.getLsbD_extractLsb', frame32_getLsbD]
    simp [hi, show 16 + i < 24 by omega]
  have h3 : (frame32 k c k.deviceId).extractLsb' 0 16 = k.deviceId := BitVec.eq_of_getLsbD_eq fun i hi => by
    rw [BitVec.getLsbD_extractLsb', frame32_getLsbD]
    simp [hi]
  simp [decodeFrame32, h1, h2, h3]

end Sys2Proof
end

