-- ==== Sys2Proof/Laws/PerInstr.lean ====
section
/-! SUPPORT. One statement per operation, proved constructor by constructor: the number of the word it is written as is
laid out as that word again. -/

namespace Sys2Proof.Laws.LaidOut

/-- The word of i under any record, where it has bits, is the one that its number stands for; a SEG17 word in three bytes too. -/
def Statement (i : Instr) : Prop :=
  ∀ (k : Config) n w, (encode k i).number = some (n, w) →
    layOut n w = .ok (encode k i) ∧ (n = 17 → layOut 24 w = .ok (encode k i))

theorem of_cmd8 {i : Instr} (c : Config → Cmd) (h : ∀ k, encode k i = .cmd8 (c k)) : Statement i := by
  intro k n w hn
  rw [h] at hn ⊢
  cases hn
  have := (c k).isLt
  simp [layOut, this]

theorem of_seg17 {i : Instr} (x : SegWord) (h : ∀ k, encode k i = .bench (.seg17 x)) : Statement i := by
  intro k n w hn
  rw [h] at hn ⊢
  cases hn
  have := x.isLt
  simp [layOut]
  omega

theorem of_frame32 {i : Instr} (x : Config → FrameWord) (h : ∀ k, encode k i = .bench (.frame32 (x k))) : Statement i := by
  intro k n w hn
  rw [h] at hn ⊢
  cases hn
  have := (x k).isLt
  simp [layOut]
  omega

theorem of_wire1 {i : Instr} (x : BitVec 1) (h : ∀ k, encode k i = .bench (.wire1 x)) : Statement i := by
  intro k n w hn
  rw [h] at hn ⊢
  cases hn
  have := x.isLt
  simp [layOut]
  omega

theorem of_none {i : Instr} (h : ∀ k, (encode k i).number = none) : Statement i := by
  intro k n w hn
  rw [h] at hn
  cases hn

theorem send (c : Cmd) : Statement (.send c) := of_cmd8 (fun _ => c) fun _ => rfl
theorem menu : Statement .menu := of_cmd8 (·.cmdMenu) fun _ => rfl
theorem play : Statement .play := of_cmd8 (·.cmdPlay) fun _ => rfl
theorem left : Statement .left := of_cmd8 (·.cmdLeft) fun _ => rfl
theorem right : Statement .right := of_cmd8 (·.cmdRight) fun _ => rfl
theorem up : Statement .up := of_cmd8 (·.cmdUp) fun _ => rfl
theorem down : Statement .down := of_cmd8 (·.cmdDown) fun _ => rfl
theorem burst (t : Dur) : Statement (.burst t) := of_seg17 _ fun _ => rfl
theorem space (t : Dur) : Statement (.space t) := of_seg17 _ fun _ => rfl
theorem assemble (c : Cmd) (d : BitVec 16) : Statement (.assemble c d) := of_frame32 (fun k => frame32 k c d) fun _ => rfl
theorem shift : Statement .shift := of_none fun _ => rfl
theorem bit1 : Statement .bit1 := of_wire1 _ fun _ => rfl
theorem bit0 : Statement .bit0 := of_wire1 _ fun _ => rfl
theorem leader : Statement .leader := of_none fun _ => rfl
theorem stop : Statement .stop := of_none fun _ => rfl

end Sys2Proof.Laws.LaidOut
end

