-- ==== Sys2Proof/Tests/Slice0.lean ====
section
/-! SUPPORT. The model's own tests: ill-formed terms, words written out from 30_encoding.md, single steps against the
tables of 95_test_vectors.md, and for every statement with hypotheses a state and operands that meet all of them. A
test whose comment says D13 or D14 depends on a default of an open parameter, as its vector does. -/

namespace Sys2Proof.Tests
open Sys2Proof Sys2Proof.Machine

/-! ### Helpers -/

/-- The next state of an outcome. -/
def nextOf : Host.Outcome State Fault Refusal → Option State
  | .next s => some s
  | .fault _ => none
  | .refused _ => none

/-- The refusal of an outcome. -/
def refusalOf : Host.Outcome State Fault Refusal → Option Refusal
  | .next _ => none
  | .fault _ => none
  | .refused why => some why

/-- The registers after an outcome. -/
def regsOf (o : Host.Outcome State Fault Refusal) : Option Registers := (nextOf o).map (·.regs)

/-- The words left on the bench after an outcome. -/
def pendingOf (o : Host.Outcome State Fault Refusal) : Option (List BenchWord) := (nextOf o).map State.pending

/-- The operation read, without the reason where there is none. -/
def readOf : Except Reject Instr → Option Instr
  | .ok i => some i
  | .error _ => none

/-- The reason of a rejection. -/
def rejectOf : Except Reject Instr → Option Reject
  | .ok _ => none
  | .error why => some why

/-- The wired block with the given registers, its caller about to do the lines given. -/
def wired (r : Registers) (ls : List Line := []) : State := { regs := r, caller := ls, bench := none, drawn := 0 }

/-- The sub-blocks on the bench, with a quiet caller. -/
def benched (r : Registers) (ws : List BenchWord) : State := { regs := r, caller := [], bench := some ws, drawn := 0 }

/-- The registers in a mark phase of the frame F. -/
def inMark (p : Phase) (F : FrameWord) (bitcnt : BitVec 6) (crem : BitVec 12) (cph : BitVec 5) : Registers :=
  { phase := p, frame := F, bitcnt := bitcnt, crem := crem, cph := cph, srem := 0, done := false }

/-- The registers in a space phase of the frame F. -/
def inSpace (p : Phase) (F : FrameWord) (bitcnt : BitVec 6) (srem : BitVec 16) : Registers :=
  { phase := p, frame := F, bitcnt := bitcnt, crem := 0, cph := 0, srem := srem, done := false }

/-- The first IDLE tick after a transmission. -/
def afterFrame : Registers := { Registers.reset with done := true }

/-- A record whose six command codes coincide. -/
def oneCode : Config :=
  { cfg with cmdPlay := 0xFC, cmdLeft := 0xFC, cmdRight := 0xFC, cmdUp := 0xFC, cmdDown := 0xFC }

/-! ### Well-formedness and parameter records: ill-formed terms are refused -/

theorem test_send_menu_code_illFormed : (Instr.send 0xFC).wellFormed cfg = false := by decide
theorem test_send_up_code_illFormed : (Instr.send 0xF5).wellFormed cfg = false := by decide
theorem test_send_open_codes_illFormed :
    (namedCodes cfg).all (fun c => !(Instr.send c).wellFormed cfg) = true := by decide
theorem test_send_unnamed_wellFormed : (Instr.send 0x12).wellFormed cfg = true := by decide
theorem test_assemble_other_device_illFormed : (Instr.assemble 0xFC 0x0000).wellFormed cfg = false := by decide
theorem test_assemble_wellFormed_in_its_build :
    (Instr.assemble 0xFC 0x0000).wellFormed { cfg with deviceId := 0x0000 } = true := by decide
-- N2: the six codes may coincide; here all six are 0xFC, and only MENU is the canonical name.
theorem test_coinciding_names_illFormed :
    [Instr.play, .left, .right, .up, .down].all (fun i => !i.wellFormed oneCode) = true := by decide
theorem test_first_coinciding_name_wellFormed : Instr.menu.wellFormed oneCode = true := by decide
theorem test_zero_high_part_invalid : { cfg with tHigh := 0 }.valid = false := by decide
theorem test_duration_zero_invalid : { cfg with tOneSpace := 0 }.valid = false := by decide
theorem test_duration_above_16_bits_invalid : { cfg with tLeadMark := 65536 }.valid = false := by decide
theorem test_duration_65535_valid : { cfg with tLeadMark := 65535 }.valid = true := by decide
theorem test_low_part_zero_valid : { cfg with tLow := 0 }.valid = true := by decide
-- R131: a record R3 allows is not refused for the widths of CPH (a cycle of 40 ticks) or CREM (4500 cycles of 2 ticks).
theorem test_cycle_of_40_ticks_counts_on :
    let k := { cfg with tHigh := 20, tLow := 20 }
    k.valid = true ∧
    (regsOf (blockTick k Ports.quiet (wired (inMark .leadMark 0x01FC7811 32 225 31)))).map tickIndex = some 32 ∧
    (regsOf (blockTick k Ports.quiet
      (wired { inMark .leadMark 0x01FC7811 32 225 7 with cphExt := 1 }))).map cyclesLeft = some 224 := by decide
theorem test_cycle_of_2_ticks_counts_4500_cycles :
    let k := { cfg with tHigh := 1, tLow := 1 }
    k.valid = true ∧
    (regsOf (blockTick k (Ports.present 0xFC) State.reset)).map cyclesLeft = some 4500 := by decide
theorem test_refused_parameters :
    refusalOf (blockTick { cfg with tStopMark := 0 } Ports.quiet State.reset) = some .badParameters := by decide

/-! ### Decoding: words written out bit by bit from 30_encoding.md, most significant bit first -/

-- CMD8 (R41, R42): the eight bits are the command code.
theorem test_decode_send : readOf (decode cfg (.cmd8 0b00010010#8)) = some (.send 0x12) := by decide
theorem test_decode_send_zero : readOf (decode cfg (.cmd8 0b00000000#8)) = some (.send 0x00) := by decide
theorem test_decode_menu : readOf (decode cfg (.cmd8 0b11111100#8)) = some .menu := by decide
theorem test_decode_up : readOf (decode cfg (.cmd8 0b11110101#8)) = some .up := by decide
-- D14: the four codes below are the spec's defaults.
theorem test_decode_play : readOf (decode cfg (.cmd8 0b11111010#8)) = some .play := by decide
theorem test_decode_left : readOf (decode cfg (.cmd8 0b11110110#8)) = some .left := by decide
theorem test_decode_right : readOf (decode cfg (.cmd8 0b11111001#8)) = some .right := by decide
theorem test_decode_down : readOf (decode cfg (.cmd8 0b11110011#8)) = some .down := by decide
-- SEG17 (R48): kind in bit 16, then the duration; the words are those of 95_test_vectors.md 2.1 and 2.3.
theorem test_decode_burst : readOf (decode cfg (.bench (.seg17 0b10010001100101000#17))) = some (.burst 9000) := by decide
theorem test_decode_burst_zero : readOf (decode cfg (.bench (.seg17 0x10000#17))) = some (.burst 0) := by decide
theorem test_decode_burst_longest : readOf (decode cfg (.bench (.seg17 0x1FFFF#17))) = some (.burst 65535) := by decide
theorem test_decode_space : readOf (decode cfg (.bench (.seg17 0b00001000110010100#17))) = some (.space 4500) := by decide
theorem test_decode_space_longest : readOf (decode cfg (.bench (.seg17 0x0FFFF#17))) = some (.space 65535) := by decide
-- FRAME32 (R44): remote identifier 00000001, command, device identifier.
theorem test_decode_assemble :
    readOf (decode cfg (.bench (.frame32 0b00000001111111000111100000010001#32))) = some (.assemble 0xFC 0x7811) := by decide
theorem test_decode_other_remote_id :
    rejectOf (decode cfg (.bench (.frame32 0b00000010111111000111100000010001#32))) = some .otherRemoteId := by decide
-- R50: nor is a frame with another device identifier ever produced; in a block built with it, this is the word of 2.2.
theorem test_decode_other_device_id :
    rejectOf (decode cfg (.bench (.frame32 0x01FC0000))) = some .otherDeviceId := by decide
theorem test_decode_device_id_of_the_build :
    readOf (decode { cfg with deviceId := 0x0000 } (.bench (.frame32 0x01FC0000))) = some (.assemble 0xFC 0x0000) := by
  decide
-- WIRE1 (R46): 1 selects BIT1, 0 selects BIT0.
theorem test_decode_bit1 : readOf (decode cfg (.bench (.wire1 0b1#1))) = some .bit1 := by decide
theorem test_decode_bit0 : readOf (decode cfg (.bench (.wire1 0b0#1))) = some .bit0 := by decide
-- No encoding (R46, R80): these stand under their names.
theorem test_decode_shift : readOf (decode cfg (.bench .shift)) = some .shift := by decide
theorem test_decode_leader : readOf (decode cfg (.bench .leader)) = some .leader := by decide
theorem test_decode_stop : readOf (decode cfg (.bench .stop)) = some .stop := by decide
theorem test_encode_burst_560 : (encode cfg (.burst 560)).number = some (17, 0x10230) := by decide
theorem test_encode_space_565 : (encode cfg (.space 565)).number = some (17, 0x00235) := by decide
theorem test_encode_assemble : (encode cfg (.assemble 0xFF 0xFFFF)).number = some (32, 0x01FFFFFF) := by decide
-- Numbers: three bytes of a SEG17 word, one bit of a WIRE1 symbol, stray bits, widths of no format.
theorem test_number_burst_24_bits : decodeTableWord 24 0x10000 = some (.burst 0) := by decide
theorem test_number_wire1 : decodeTableWord 1 1 = some .bit1 := by decide
theorem test_number_stray_bits : rejectOf (decodeNumber cfg 24 0x20000) = some .strayBits := by decide
theorem test_number_no_format : rejectOf (decodeNumber cfg 0 0) = some .noSuchFormat := by decide

/-! ### Operations, one step each; the expected values are those of 95_test_vectors.md -/

-- Program 3, tick 0 (D13): SEND 0x00 from reset.
theorem test_send_accepted :
    regsOf (exec (.send 0x00) State.reset) = some (inMark .leadMark 0x01007811 32 347 0) := by decide
-- Program 2, tick 5000 (D13): a start while busy is dropped, the tick goes on as if there were none.
theorem test_send_dropped_while_busy :
    regsOf (exec (.send 0x00) (wired (inMark .leadMark 0x01F57811 32 155 8))) =
      some (inMark .leadMark 0x01F57811 32 155 9) := by decide
-- 2.8 "start in the done tick" with Program 1, tick 0 (D13): accepted, and DONE falls.
theorem test_menu_in_done_tick :
    regsOf (exec .menu (wired afterFrame)) = some (inMark .leadMark 0x01FC7811 32 347 0) := by decide
-- 2.8 "start in the last STOP_MARK tick": dropped, DONE rises.
theorem test_menu_in_last_stop_tick : regsOf (exec .menu (wired (inMark .stopMark 0 0 1 25))) = some afterFrame := by
  decide
-- 2.7 (D13, D14): the frames of the other five.
theorem test_play : regsOf (exec .play State.reset) = some (inMark .leadMark 0x01FA7811 32 347 0) := by decide
theorem test_left : regsOf (exec .left State.reset) = some (inMark .leadMark 0x01F67811 32 347 0) := by decide
theorem test_right : regsOf (exec .right State.reset) = some (inMark .leadMark 0x01F97811 32 347 0) := by decide
theorem test_up : regsOf (exec .up State.reset) = some (inMark .leadMark 0x01F57811 32 347 0) := by decide
theorem test_down : regsOf (exec .down State.reset) = some (inMark .leadMark 0x01F37811 32 347 0) := by decide
-- R112: the code of PLAY is whatever the record gives it.
theorem test_play_of_another_record :
    regsOf (execIn { cfg with cmdPlay := 0x12, deviceId := 0xFFFF } .play State.reset) =
      some (inMark .leadMark 0x0112FFFF 32 347 0) := by decide
-- 2.1: one over a multiple of 26 gives a whole extra cycle; the largest operand fits CREM.
theorem test_burst_27 : regsOf (exec (.burst 27) State.reset) = some (inMark .leadMark 0 0 2 0) := by decide
theorem test_burst_longest : regsOf (exec (.burst 65535) State.reset) = some (inMark .leadMark 0 0 2521 0) := by decide
-- R61 under another record: a cycle of 16 ticks, 65520 = 4095 * 16, the largest count CREM holds.
theorem test_burst_fills_crem :
    regsOf (execIn { cfg with tLow := 6 } (.burst 65520) State.reset) = some (inMark .leadMark 0 0 4095 0) := by decide
-- 2.3: a space is not rounded; SPACE 0 is empty.
theorem test_space_565 : regsOf (exec (.space 565) State.reset) = some (inSpace .leadSpace 0 0 565) := by decide
theorem test_space_0 : nextOf (exec (.space 0) State.reset) = some State.reset := by decide
-- 2.2: rows of the ASSEMBLE table; the second in a block built with DEVICE_ID = 0xFFFF. The word's device field is not
-- looked at: no frame has another device identifier (R50).
theorem test_assemble_menu :
    regsOf (exec (.assemble 0xFC 0x0000) State.reset) =
      some { Registers.reset with frame := 0x01FC7811, bitcnt := 32 } := by decide
theorem test_assemble_ones :
    regsOf (execIn { cfg with deviceId := 0xFFFF } (.assemble 0xFF 0xFFFF) State.reset) =
      some { Registers.reset with frame := 0x01FFFFFF, bitcnt := 32 } := by decide
-- 2.2: the first SHIFT. Then SHIFT at BITCNT = 0, of which only FRAME is fixed (log 12).
theorem test_shift_first :
    regsOf (exec .shift (wired (inSpace .bitSpace 0x01FC7811 32 1))) = some (inSpace .bitSpace 0x00FE3C08 31 1) := by
  decide
theorem test_shift_at_zero :
    (regsOf (exec .shift (wired (inSpace .bitSpace 0x80000001 0 1)))).map (·.frame) = some 0x40000000 := by decide
-- 2.1, 2.3, 2.4: the symbols' cycle counts and the SEG17 words of their spaces.
theorem test_bit1 :
    regsOf (exec .bit1 State.reset) = some (inMark .leadMark 0 0 22 0) ∧
    pendingOf (exec .bit1 State.reset) = some [.seg17 0x00235] := by decide
theorem test_bit0 :
    regsOf (exec .bit0 State.reset) = some (inMark .leadMark 0 0 22 0) ∧
    pendingOf (exec .bit0 State.reset) = some [.seg17 0x0069A] := by decide
theorem test_leader :
    regsOf (exec .leader State.reset) = some (inMark .leadMark 0 0 347 0) ∧
    pendingOf (exec .leader State.reset) = some [.seg17 0x01194] := by decide
theorem test_stop :
    regsOf (exec .stop State.reset) = some (inMark .leadMark 0 0 22 0) ∧
    pendingOf (exec .stop State.reset) = some [] := by decide

/-! ### Ticks of the sequencer: Program 1 (D13), Program 4 (D13), Program 5 -/

theorem test_tick_25 : regsOf (step (wired (inMark .leadMark 0x01FC7811 32 347 25))) =
    some (inMark .leadMark 0x01FC7811 32 346 0) := by decide
theorem test_tick_9021 : regsOf (step (wired (inMark .leadMark 0x01FC7811 32 1 25))) =
    some (inSpace .leadSpace 0x01FC7811 32 4500) := by decide
theorem test_tick_13521 : regsOf (step (wired (inSpace .leadSpace 0x01FC7811 32 1))) =
    some (inMark .bitMark 0x01FC7811 32 22 0) := by decide
theorem test_tick_14093 : regsOf (step (wired (inMark .bitMark 0x01FC7811 32 1 25))) =
    some (inSpace .bitSpace 0x01FC7811 32 565) := by decide
-- 2.4 row 4 to 5: data bit 1 is 0, so its space is the long one.
theorem test_tick_15230 : regsOf (step (wired (inMark .bitMark 0x00FE3C08 31 1 25))) =
    some (inSpace .bitSpace 0x00FE3C08 31 1690) := by decide
theorem test_tick_14658 : regsOf (step (wired (inSpace .bitSpace 0x01FC7811 32 1))) =
    some (inMark .bitMark 0x00FE3C08 31 22 0) := by decide
theorem test_tick_71280 : regsOf (step (wired (inSpace .bitSpace 0 1 1))) = some (inMark .stopMark 0 0 22 0) := by decide
theorem test_tick_71852 : regsOf (step (wired (inMark .stopMark 0 0 1 25))) = some afterFrame := by decide
theorem test_tick_71853 : nextOf (step (wired afterFrame)) = some State.reset := by decide
-- Program 4, tick 104: reset and start together in the high part of a cycle.
theorem test_tick_104 :
    nextOf (step (wired (inMark .leadMark 0x01FC7811 32 343 0) [.pins ⟨true, true, 0xF5⟩])) = some State.reset := by
  decide
-- Program 4, tick 105: the first command after reset.
theorem test_tick_105 : regsOf (step (wired Registers.reset [.force 0xF5])) =
    some (inMark .leadMark 0x01F57811 32 347 0) := by decide
-- R21, Program 1: the line at ticks 9 and 10.
theorem test_ir_out_9 : irOut cfg (inMark .leadMark 0x01FC7811 32 347 9) = true := by decide
theorem test_ir_out_10 : irOut cfg (inMark .leadMark 0x01FC7811 32 347 10) = false := by decide
-- Program 5, the boundary to tick 55: SPACE 3 ends, BURST 0 takes no time, BURST 26 starts.
theorem test_program5_tick_54 :
    regsOf (step (benched (inSpace .leadSpace 0 0 1) [.seg17 0x10000, .seg17 0x1001A])) =
      some (inMark .bitMark 0 0 1 0) := by decide
-- A wave of Program 5's first line, 2.1: ten ticks high, sixteen low, twice.
theorem test_wave_burst_27 : burstWave cfg 27 =
    List.replicate 10 true ++ List.replicate 16 false ++ List.replicate 10 true ++ List.replicate 16 false := by decide
-- A FRAME32 word with another remote identifier on the bench is refused by name.
theorem test_bench_word_refused :
    refusalOf (step (benched Registers.reset [.frame32 0x02FC7811])) = some (.noSuchWord .otherRemoteId) := by decide
-- A word placed for the very next step: BURST 27 in three bytes, and UP.
theorem test_placed_burst : regsOf (step (State.reset.withFetchWord 24 0x1001B)) = some (inMark .leadMark 0 0 2 0) := by
  decide
theorem test_placed_up : regsOf (step (State.reset.withFetchWord 8 0xF5)) =
    some (inMark .leadMark 0x01F57811 32 347 0) := by decide

/-! ### Witnesses: for every statement with hypotheses, states and operands that meet all of them, at the boundary values
of its clauses -/

/-- A state whose reset input is 1 in this tick, in registers no run reaches. -/
def resetting : State := wired (inMark .stopMark 5 63 0 31) [.pins ⟨true, true, 0xF5⟩]

/-- An idle wired block, a command on its ports. -/
def asked (c : Cmd) : State := wired Registers.reset [.force c]

/-- Registers in the middle of the last data bit's mark: bit 31 is 0. -/
def lastBit : Registers := inMark .bitMark 0 1 22 0

theorem next_of_nextOf {o : Host.Outcome State Fault Refusal} {t : State} (h : nextOf o = some t) : o = .next t := by
  cases o <;> simp_all [nextOf]

theorem wit_ResetWinsInEveryState : resetting.ports.rst = true := by decide

theorem wit_InputsAreExaminedInOrder :
    (let s := wired (inMark .leadMark 0x01FC7811 32 343 0) [.pins ⟨true, true, 0xF5⟩]
     s.bench = none ∧ legal cfg s.regs = true ∧ s.ports.rst = true) ∧
    (let s := wired (inMark .stopMark 0 0 1 25) [.force 0]
     s.bench = none ∧ legal cfg s.regs = true ∧ s.ports.rst = false ∧ s.regs.phase ≠ .idle ∧ s.ports.start = true) ∧
    (let s := wired afterFrame [.force 0xFF]
     s.bench = none ∧ legal cfg s.regs = true ∧ s.ports.rst = false ∧ s.regs.phase = .idle ∧ s.ports.start = true) ∧
    (let s := wired afterFrame
     s.bench = none ∧ legal cfg s.regs = true ∧ s.ports.rst = false ∧ s.regs.phase = .idle ∧
       s.ports.start = false) := by decide

theorem wit_CarrierTickCounts :
    (let s := wired (inMark .leadMark 0x01FC7811 32 347 24)
     s.bench = none ∧ legal cfg s.regs = true ∧ s.ports.rst = false ∧ s.regs.phase.isMark = true ∧
       s.regs.cph.toNat < 25) ∧
    (let s := wired (inMark .bitMark 0x01FC7811 32 2 25)
     s.bench = none ∧ legal cfg s.regs = true ∧ s.ports.rst = false ∧ s.regs.phase.isMark = true ∧
       s.regs.cph = 25 ∧ 1 < s.regs.crem.toNat) ∧
    (let s := wired (inMark .stopMark 0 0 1 25)
     s.bench = none ∧ legal cfg s.regs = true ∧ s.ports.rst = false ∧ s.regs.phase.isMark = true ∧
       s.regs.cph = 25 ∧ s.regs.crem = 1) := by decide

theorem wit_SpaceTickCounts :
    (let s := wired (inSpace .leadSpace 0x01FC7811 32 2)
     s.bench = none ∧ legal cfg s.regs = true ∧ s.ports.rst = false ∧ s.regs.phase.isSpace = true ∧
       1 < s.regs.srem.toNat) ∧
    (let s := wired (inSpace .bitSpace 0 1 1)
     s.bench = none ∧ legal cfg s.regs = true ∧ s.ports.rst = false ∧ s.regs.phase.isSpace = true ∧
       s.regs.srem = 1) := by decide

theorem wit_LeaderMarkEnds :
    let s := wired (inMark .leadMark 0x01007811 32 1 25)
    s.bench = none ∧ legal cfg s.regs = true ∧ s.ports.rst = false ∧ s.regs.phase = .leadMark ∧ s.regs.cph = 25 ∧
      s.regs.crem = 1 := by decide

theorem wit_LeaderSpaceEnds :
    let s := wired (inSpace .leadSpace 0x01FF7811 32 1)
    s.bench = none ∧ legal cfg s.regs = true ∧ s.ports.rst = false ∧ s.regs.phase = .leadSpace ∧ s.regs.srem = 1 := by
  decide

theorem wit_BitMarkEnds :
    (let s := wired (inMark .bitMark 0x01FC7811 32 1 25)
     s.bench = none ∧ legal cfg s.regs = true ∧ s.ports.rst = false ∧ s.regs.phase = .bitMark ∧ s.regs.cph = 25 ∧
       s.regs.crem = 1 ∧ s.regs.frame.getLsbD 0 = true) ∧
    (let s := wired (inMark .bitMark 0 1 1 25)
     s.bench = none ∧ legal cfg s.regs = true ∧ s.ports.rst = false ∧ s.regs.phase = .bitMark ∧ s.regs.cph = 25 ∧
       s.regs.crem = 1 ∧ s.regs.frame.getLsbD 0 = false) := by decide

theorem wit_BitSpaceEnds :
    (let s := wired (inSpace .bitSpace 0 2 1)
     s.bench = none ∧ legal cfg s.regs = true ∧ s.ports.rst = false ∧ s.regs.phase = .bitSpace ∧ s.regs.srem = 1 ∧
       1 < s.regs.bitcnt.toNat) ∧
    (let s := wired (inSpace .bitSpace 0 1 1)
     s.bench = none ∧ legal cfg s.regs = true ∧ s.ports.rst = false ∧ s.regs.phase = .bitSpace ∧ s.regs.srem = 1 ∧
       s.regs.bitcnt = 1) := by decide

theorem wit_StopMarkEnds :
    let s := wired (inMark .stopMark 0 0 1 25) [.force 0]
    s.bench = none ∧ legal cfg s.regs = true ∧ s.ports.rst = false ∧ s.regs.phase = .stopMark ∧ s.regs.cph = 25 ∧
      s.regs.crem = 1 := by decide

/-- One wired step of every phase, with and without reset, and of both branches of IDLE. -/
theorem wit_PhaseMovesOnlyAlongTheEdges :
    [wired Registers.reset, asked 0xFC, wired (inMark .leadMark 0x01FC7811 32 1 25),
      wired (inMark .leadMark 0x01FC7811 32 2 25), wired (inSpace .leadSpace 0x01FC7811 32 1),
      wired (inSpace .leadSpace 0x01FC7811 32 2), wired lastBit, wired (inMark .bitMark 0x01FC7811 32 1 25),
      wired (inSpace .bitSpace 0 2 1), wired (inSpace .bitSpace 0 1 1), wired (inSpace .bitSpace 0 1 2),
      wired (inMark .stopMark 0 0 1 25), wired (inMark .stopMark 0 0 1 24),
      wired (inSpace .leadSpace 0x01FC7811 32 4500) [.reset]].all
      (fun s => s.bench == none && legal cfg s.regs && (nextOf (step s)).isSome) = true := by decide

theorem wit_PhaseMovesOnlyAlongTheEdges_states :
    ∃ s t : State, s.bench = none ∧ legal cfg s.regs = true ∧ step s = .next t ∧ s.ports.rst = false :=
  ⟨asked 0xFC, wired (inMark .leadMark 0x01FC7811 32 347 0), by decide, by decide, next_of_nextOf (by decide), by decide⟩

theorem wit_DoneIsAPulseOfOneTick :
    (∃ s t : State, s.bench = none ∧ legal cfg s.regs = true ∧ step s = .next t ∧ t.regs.done = true) ∧
    ∃ s t : State, s.bench = none ∧ legal cfg s.regs = true ∧ step s = .next t ∧ t.regs.done = false :=
  ⟨⟨wired (inMark .stopMark 0 0 1 25), wired afterFrame, by decide, by decide, next_of_nextOf (by decide), by decide⟩,
    ⟨wired afterFrame, State.reset, by decide, by decide, next_of_nextOf (by decide), by decide⟩⟩

theorem wit_FrameIsWrittenOnlyByAssembleAndShift :
    (∃ s t : State, s.bench = none ∧ legal cfg s.regs = true ∧ step s = .next t ∧ t.regs.frame ≠ s.regs.frame ∧
      s.ports.rst = true) ∧
    (∃ s t : State, s.bench = none ∧ legal cfg s.regs = true ∧ step s = .next t ∧ t.regs.frame ≠ s.regs.frame ∧
      s.ports.start = true) ∧
    ∃ s t : State, s.bench = none ∧ legal cfg s.regs = true ∧ step s = .next t ∧ t.regs.frame ≠ s.regs.frame ∧
      s.regs.phase = .bitSpace :=
  ⟨⟨wired (inSpace .bitSpace 0x01FC7811 32 9) [.reset], State.reset, by decide, by decide, next_of_nextOf (by decide),
      by decide, by decide⟩,
    ⟨asked 0xFC, wired (inMark .leadMark 0x01FC7811 32 347 0), by decide, by decide, next_of_nextOf (by decide),
      by decide, by decide⟩,
    ⟨wired (inSpace .bitSpace 0x01FC7811 32 1), wired (inMark .bitMark 0x00FE3C08 31 22 0), by decide, by decide,
      next_of_nextOf (by decide), by decide, by decide⟩⟩

theorem wit_SendIsAcceptedInIdle : legal cfg afterFrame = true ∧ afterFrame.phase = .idle := by decide

theorem wit_ButtonsAreAcceptedAsTheirCodes :
    legal cfg State.reset.regs = true ∧ State.reset.regs.phase = .idle := by decide

theorem wit_CommandsAreDroppedWhileBusy :
    [Instr.send 0, .send 0xFF, .menu, .play, .left, .right, .up, .down].all
      (fun i => (i.command? cfg).isSome) = true ∧
    (let r := inMark .stopMark 0 0 1 25
     legal cfg r = true ∧ r.phase ≠ .idle) ∧
    (let r := inSpace .leadSpace 0x01FC7811 32 4500
     legal cfg r = true ∧ r.phase ≠ .idle) := by decide

theorem wit_EveryCommandByteIsTransmitted :
    legal cfg afterFrame = true ∧ afterFrame.phase = .idle ∧ readOf (decode cfg (.cmd8 0xFF)) = some (.send 0xFF) ∧
      readOf (decode cfg (.cmd8 0xFC)) = some .menu := by decide

theorem wit_BurstStartsItsCycles : (1 : Dur) ≠ 0 ∧ (65535 : Dur) ≠ 0 := by decide

theorem wit_SpaceStartsItsTicks : (1 : Dur) ≠ 0 ∧ (65535 : Dur) ≠ 0 := by decide

theorem wit_EmptySegmentsDoNothing : cfg.valid = true ∧ { cfg with tHigh := 1, tLow := 0 }.valid = true := by decide

theorem wit_ShiftAdvancesTheFrame :
    (inSpace .bitSpace 0 1 1).bitcnt ≠ 0 ∧ (inSpace .bitSpace 0x01FC7811 63 1).bitcnt ≠ 0 ∧
      Registers.reset.bitcnt = 0 := by decide

theorem wit_DecodeReadsWhatEncodeWrites :
    [Instr.send 0, .send 0xFF, .menu, .play, .left, .right, .up, .down, .burst 0, .burst 65535, .space 0, .space 65535,
      .assemble 0 0x7811, .assemble 0xFF 0x7811, .shift, .bit1, .bit0, .leader, .stop].all
      (Instr.wellFormed cfg) = true ∧
    [Instr.send 0, .send 0xFF, .menu, .assemble 0xFF 0x7811].all (Instr.wellFormed oneCode) = true := by decide

theorem wit_EveryWordHasOneReading :
    readOf (decode cfg (.cmd8 0)) = some (.send 0) ∧ readOf (decode cfg (.bench (.seg17 0x1FFFF))) = some (.burst 65535) ∧
    rejectOf (decode cfg (.bench (.frame32 0x00FFFFFF))) = some .otherRemoteId ∧
    rejectOf (decode cfg (.bench (.frame32 0xFFFFFFFF))) = some .otherRemoteId ∧
    rejectOf (decode cfg (.bench (.frame32 0x01FC7810))) = some .otherDeviceId ∧
    readOf (decode oneCode (.cmd8 0xFC)) = some .menu := by decide

theorem wit_NumberedWordsDecode :
    ((Instr.send 0xFF).wellFormed cfg = true ∧ (encode cfg (.send 0xFF)).number = some (8, 0xFF)) ∧
    ((Instr.burst 65535).wellFormed cfg = true ∧ (encode cfg (.burst 65535)).number = some (17, 0x1FFFF)) ∧
    ((Instr.bit0).wellFormed cfg = true ∧ (encode cfg .bit0).number = some (1, 0)) ∧
    (8 ∈ [1, 8, 17, 32] ∧ 2 ^ 8 ≤ 256) ∧ (32 ∈ [1, 8, 17, 32] ∧ 2 ^ 32 ≤ 4294967296) ∧ 2 ^ 17 ≤ 131072 := by decide

theorem wit_PortCommandRunsItsOperation :
    (asked 0xF5).bench = none ∧ (asked 0xF5).ports.rst = false ∧ (asked 0xF5).ports.start = true ∧
      readOf (decode cfg (.cmd8 (asked 0xF5).ports.cmd)) = some .up := by decide

theorem wit_BenchWordRunsItsOperation :
    (let s := benched afterFrame [.wire1 1, .shift]
     s.ports.rst = false ∧ benchLegal cfg s.regs = true ∧ running cfg s.regs = false ∧
       readOf (decode cfg (.bench (.wire1 1))) = some .bit1 ∧ takesTime .bit1 = true) ∧
    (let s := benched (inMark .bitMark 7 0 1 25) [.shift, .seg17 0x10000]
     s.ports.rst = false ∧ benchLegal cfg s.regs = true ∧ running cfg s.regs = false ∧
       readOf (decode cfg (.bench .shift)) = some .shift ∧ takesTime .shift = false) := by decide

theorem wit_PlacedWordIsRunByTheNextStep :
    decodeTableWord 8 0 = some (.send 0) ∧ decodeTableWord 24 0x1FFFF = some (.burst 65535) ∧
    decodeTableWord 32 0x01007811 = some (.assemble 0 0x7811) ∧ State.reset.regs.phase = .idle ∧
    benchLegal cfg State.reset.regs = true := by decide

theorem wit_StepKeepsTheInvariant :
    (∃ s s' : State, s.bench = none ∧ invariant s = true ∧ step s = .next s') ∧
    ∃ s s' : State, s.bench ≠ none ∧ invariant s = true ∧ step s = .next s' :=
  ⟨⟨wired (inSpace .bitSpace 0 1 1), wired (inMark .stopMark 0 0 22 0), by decide, by decide,
      next_of_nextOf (by decide)⟩,
    ⟨benched Registers.reset [.seg17 0x1FFFF], benched (inMark .leadMark 0 0 2521 0) [], by decide, by decide,
      next_of_nextOf (by decide)⟩⟩

theorem wit_LegalStatesNeverStop :
    (let s := wired (inMark .leadMark 0x01FF7811 32 347 25) [.waitDone]
     invariant s = true ∧ benchReadable s = true) ∧
    (let s := benched (inMark .bitMark 7 0 2521 0) [.shift, .frame32 0x01007811, .leader]
     invariant s = true ∧ benchReadable s = true) := by decide

theorem wit_UnreachableStatesAreRefused :
    [wired (inMark .leadMark 0x01FC7811 32 348 0), wired (inMark .leadMark 0x01FC7811 32 0 0),
      wired (inMark .leadMark 0x01FC7811 32 1 26),
      wired { inMark .leadMark 0x01FC7811 32 1 0 with cphExt := 1 }, wired (inMark .leadMark 0x02FC7811 32 1 0),
      wired (inSpace .leadSpace 0x01FC7811 32 4501), wired (inSpace .bitSpace 0 33 1),
      wired { Registers.reset with frame := 1 }, benched (inMark .stopMark 0 0 2522 0) []].all
      (fun s => !s.ports.rst && !invariant s) = true := by decide

theorem wit_BadParametersAreRefused :
    ({ cfg with tHigh := 0 } : Config).tHigh = 0 ∧ 65535 < ({ cfg with tLeadMark := 65536 } : Config).tLeadMark := by
  decide

theorem wit_LegalRegistersAreThoseOfTheSpec :
    [inMark .leadMark 0x01007811 32 347 25, inMark .leadMark 0x01FF7811 32 1 0, inSpace .leadSpace 0x01FF7811 32 4500,
      inMark .bitMark 0x01FC7811 32 1 0, lastBit, inSpace .bitSpace 0 1 1, inMark .stopMark 0 0 22 25, afterFrame].all
      (legal cfg) = true := by decide

theorem wit_ShiftsHandOutTheFrame : (0 ≤ 32 ∧ 0 < 32) ∧ 31 < 32 ∧ 32 ≤ 32 := by decide

theorem wit_FrameOnTheWireIsItsSymbols : 0 < 32 ∧ 31 < 32 ∧ 24 < 25 := by decide

theorem wit_BurstsAreRoundedUp : 0 ≤ 26 * 0 ∧ 27 ≤ 26 * 2 := by decide

theorem wit_BurstsHaveTheirEdges : 1 ≤ 1 ∧ 1 ≤ 65535 := by decide

/-- The ports of a caller that asks once and then wants another command all the time. -/
def insisting (j : Nat) : Ports := if j = 0 then Ports.present 0xFC else Ports.present 0x00

theorem wit_TransmissionIsTheWaveForEveryDevice :
    afterFrame.phase = .idle ∧ insisting 0 = Ports.present 0xFC ∧
      ∀ j, j ≤ tEmitted { cfg with deviceId := 0xFFFF } 0xFC → (insisting j).rst = false := by
  refine ⟨rfl, rfl, fun j _ => ?_⟩
  unfold insisting
  split <;> rfl

theorem wit_AcceptedCommandShowsItsWave :
    let s := wired afterFrame [.force 0xFF, .idle 4, .force 0x12, .waitDone, .send 1]
    s.bench = none ∧ legal cfg s.regs = true ∧ s.regs.phase = .idle ∧ s.ports = Ports.present 0xFF ∧
      noReset s = true := by decide

theorem wit_CallersCannotDisturbATransmission :
    let s := wired (inMark .leadMark 0x01FC7811 32 347 0) [.force 1]
    let s' := wired (inMark .leadMark 0x01FC7811 32 347 0) [.waitDone]
    s.bench = none ∧ s'.bench = none ∧ s.regs = s'.regs ∧ legal cfg s.regs = true ∧ noReset s = true ∧
      noReset s' = true ∧
      ∀ m, m < 2 → ∃ t, Host.Core.run Sys2Proof.core m s = .next t ∧ busy t.regs = true := by
  refine ⟨rfl, rfl, rfl, by decide, by decide, by decide, fun m h => ?_⟩
  obtain rfl | rfl : m = 0 ∨ m = 1 := by omega
  · exact ⟨_, rfl, by decide⟩
  · refine ⟨wired (inMark .leadMark 0x01FC7811 32 347 1), ?_, by decide⟩
    have h1 : step (wired (inMark .leadMark 0x01FC7811 32 347 0) [.force 1]) =
        .next (wired (inMark .leadMark 0x01FC7811 32 347 1)) := next_of_nextOf (by decide)
    simp only [Host.Core.run, core, h1]

theorem wit_AcceptanceForgetsThePast :
    (Ports.present 0x80).start = true ∧ Registers.reset.phase = .idle ∧
      { afterFrame with frame := 7, bitcnt := 63, crem := 4095, cph := 31, srem := 65535 }.phase = .idle := by decide

theorem wit_ModulatorAloneShowsItsScript :
    (let s := benched afterFrame ([Seg.burst 27, .space 3, .burst 0, .burst 26].map fun g => .seg17 g.word)
     benchLegal cfg s.regs = true ∧ s.regs.phase = .idle ∧ noReset s = true) ∧
    (let s := benched Registers.reset (([] : List Seg).map fun g => .seg17 g.word)
     benchLegal cfg s.regs = true ∧ s.regs.phase = .idle ∧ noReset s = true) := by decide

theorem wit_TransmissionIsItsOperations :
    let b := benched Registers.reset ([.frame32 (assembled cfg 0xFC), .leader] ++
      (frameBits (assembled cfg 0xFC)).flatMap (fun bit => [.wire1 (if bit then 1 else 0), .shift]) ++ [.stop])
    (asked 0xFC).bench = none ∧ legal cfg (asked 0xFC).regs = true ∧ (asked 0xFC).regs.phase = .idle ∧
      (asked 0xFC).ports = Ports.present 0xFC ∧ noReset (asked 0xFC) = true ∧ noReset b = true ∧
      b.regs = (asked 0xFC).regs ∧ 71853 ≤ tEmitted cfg 0xFC :=
  ⟨rfl, by decide, rfl, by decide, by decide, by decide, rfl, by decide⟩

theorem wit_BuildIsAnArgument :
    let k := { oneCode with deviceId := 0xFFFF }
    let s := wired Registers.reset [.button .down]
    s.bench = none ∧ (s.portsIn k).rst = false ∧ (s.portsIn k).start = true ∧
      readOf (decode k (.cmd8 (s.portsIn k).cmd)) = some .menu := by decide

theorem wit_NamesAreAliasesOfSend :
    Instr.play.command? cfg = some 0xFA ∧ Instr.down.command? oneCode = some 0xFC ∧
      (Instr.send 0xFC).command? oneCode = some 0xFC := by decide

theorem wit_ButtonsFollowTheRecord :
    oneCode.valid = true ∧ legal oneCode afterFrame = true ∧ afterFrame.phase = .idle ∧
      { cfg with tLow := 22, tLeadMark := 65535 }.valid = true ∧
      legal { cfg with tLow := 22, tLeadMark := 65535 } afterFrame = true := by decide

theorem wit_BurstFollowsTheRecord :
    (let k := { cfg with tHigh := 1, tLow := 0 }
     k.valid = true ∧ (65535 : Dur) ≠ 0 ∧ ¬ 17 ≤ k.tCycle) ∧
    (let k := { cfg with tLow := 7 }
     k.valid = true ∧ (1 : Dur) ≠ 0 ∧ 17 ≤ k.tCycle) ∧
    (let k := { cfg with tHigh := 20, tLow := 20 }
     let r := inMark .leadMark 0x01FC7811 32 225 31
     k.valid = true ∧ legal k r = true ∧ r.phase.isMark = true ∧ tickIndex r + 1 < k.tCycle) ∧
    (let k := { cfg with tHigh := 1, tLow := 0 }
     let r := { inMark .leadMark 0x01FC7811 32 0 0 with cremExt := 1 }
     k.valid = true ∧ legal k r = true ∧ r.phase.isMark = true ∧ tickIndex r + 1 = k.tCycle ∧ 1 < cyclesLeft r) ∧
    (let k := { cfg with tHigh := 20, tLow := 20 }
     let r := { inMark .stopMark 0 0 1 7 with cphExt := 1 }
     k.valid = true ∧ legal k r = true ∧ r.phase.isMark = true ∧ tickIndex r + 1 = k.tCycle ∧ cyclesLeft r = 1) := by
  decide

theorem wit_EveryValidRecordRuns :
    (let k := { cfg with tHigh := 20, tLow := 20 }
     let s := wired { inMark .leadMark 0x01FC7811 32 225 7 with cphExt := 1 }
     k.valid = true ∧ s.bench = none ∧ legal k s.regs = true) ∧
    (let k := { cfg with tHigh := 1, tLow := 0, tLeadMark := 65535, tOneSpace := 1 }
     let s := wired { inMark .leadMark 0x01FC7811 32 4095 0 with cremExt := 15 }
     k.valid = true ∧ s.bench = none ∧ legal k s.regs = true) := by decide

end Sys2Proof.Tests
end

section
/-! The command bytes, the fields of the frame word, and the wire symbols of a frame (30_encoding.md R43 to R47). -/

namespace Sys2Proof.Machine

/-! ### Command bytes (R43) -/

/-- R90 under every valid record: a command presented in `IDLE` is accepted. -/
theorem blockTick_present_idle {k : Config} {s : State} (hk : k.valid = true) (hl : legal k s.regs = true)
    (hp : s.regs.phase = .idle) (c : Cmd) :
    blockTick k (Ports.present c) s = .next { s with regs := accept k c s.regs } := by
  simp [blockTick, hk, hl, Ports.present, State.onRegs, tick, hp]

/-- The reading of a command byte is `SEND` of that byte, whether or not the byte has a name (R42). -/
theorem execIn_decodeCmd8_eq_send (k : Config) (c : Cmd) (s : State) :
    execIn k (decodeCmd8 k c) s = execIn k (.send c) s :=
  (execIn_decodeCmd8 k c s).trans (execIn_command rfl s).symm

/-- Settles O19: the decoder's reading of the byte is the witness; it presents the byte to the block, which accepts any
byte in `IDLE`. -/
theorem everyCommandByteIsTransmitted : Obligations.EveryCommandByteIsTransmitted := by
  constructor
  · intro k c s
    refine ⟨decodeCmd8 k c, rfl, execIn_decodeCmd8_eq_send k c s, fun hk hl hp => ?_⟩
    rw [execIn_decodeCmd8, blockTick_present_idle hk hl hp]
  · intro c s
    refine ⟨decodeCmd8 cfg c, rfl, ?_, fun hl hp => ?_⟩
    · rw [exec_eq_execIn, exec_eq_execIn, execIn_decodeCmd8_eq_send]
    · rw [exec_eq_execIn, execIn_decodeCmd8, blockTick_present_idle cfg_valid hl hp]

/-! ### Fields of the frame word (R44, R45) -/

section frameFields
variable (k : Config) (c : Cmd) (d : BitVec 16)

/-- R45: the frame built by OR is the concatenation of its fields. -/
theorem frameOf_eq_frame32 : frameOf k c d = frame32 k c d :=
  BitVec.eq_of_getLsbD_eq fun i _ => by rw [frameOf_getLsbD, frame32_getLsbD]

/-- R45: no two fields overlap, so the carries of the addition are all 0 and it is the OR. -/
theorem frameOf_eq_add :
    frameOf k c d = ((k.remoteId.setWidth 32) <<< 24) + ((c.setWidth 32) <<< 16) + (d.setWidth 32) := by
  have remote_command : ((k.remoteId.setWidth 32) <<< 24) &&& ((c.setWidth 32) <<< 16) = 0#32 := by
    refine BitVec.eq_of_getLsbD_eq fun i hi => ?_
    by_cases h : i < 24
    · simp [h]
    · simp [BitVec.getLsbD_of_ge c (i - 16) (by omega)]
  have upper_device :
      (((k.remoteId.setWidth 32) <<< 24) ||| ((c.setWidth 32) <<< 16)) &&& (d.setWidth 32) = 0#32 := by
    refine BitVec.eq_of_getLsbD_eq fun i hi => ?_
    by_cases h : i < 16
    · simp [h, show i < 24 by omega]
    · simp [BitVec.getLsbD_of_ge d i (by omega)]
  rw [BitVec.add_eq_or_of_and_eq_zero _ _ remote_command, BitVec.add_eq_or_of_and_eq_zero _ _ upper_device, frameOf]

/-- R44: bits 31:24. -/
theorem frameOf_remoteId : (frameOf k c d).extractLsb' 24 8 = k.remoteId :=
  BitVec.eq_of_getLsbD_eq fun i hi => by
    simp [frameOf_getLsbD, hi, show ¬ 24 + i < 16 by omega]

/-- R44: bits 23:16. -/
theorem frameOf_command : (frameOf k c d).extractLsb' 16 8 = c :=
  BitVec.eq_of_getLsbD_eq fun i hi => by
    simp [frameOf_getLsbD, hi, show 16 + i < 24 by omega]

/-- R44: bits 15:0. -/
theorem frameOf_deviceId : (frameOf k c d).extractLsb' 0 16 = d :=
  BitVec.eq_of_getLsbD_eq fun i hi => by
    simp [frameOf_getLsbD, hi]

end frameFields

/-- Settles O39: OR, concatenation and addition agree bit by bit, and each field is read back at its place. -/
theorem frameFieldsArePlaced : Obligations.FrameFieldsArePlaced := fun k c d =>
  ⟨frameOf_eq_frame32 k c d, frameOf_eq_add k c d, frameOf_remoteId k c d, frameOf_command k c d,
    frameOf_deviceId k c d⟩

/-! ### The segment list of a frame, symbol by symbol (R46, R47) -/

section segmentList
variable (k : Config) (c : Cmd)

/-- A data symbol is one burst and one space. -/
@[simp] theorem length_bitSymbol (b : Bool) : (bitSymbol k b).length = 2 := rfl

/-- Past the first i symbols, 2 i segments, stand the symbols of the bits past the first i. -/
theorem drop_flatMap_bitSymbol (bs : List Bool) (i : Nat) :
    (bs.flatMap (bitSymbol k)).drop (2 * i) = (bs.drop i).flatMap (bitSymbol k) := by
  induction i generalizing bs with
  | zero => rfl
  | succ i ih =>
    cases bs with
    | nil => simp
    | cons b bs => exact ih bs

@[simp] theorem length_frameBits (f : FrameWord) : (frameBits f).length = 32 := by simp [frameBits]

/-- R31: the bits from bit i on, in the order of transmission. -/
theorem drop_frameBits (f : FrameWord) {i : Nat} (hi : i < 32) :
    (frameBits f).drop i = f.getLsbD i :: (frameBits f).drop (i + 1) := by
  rw [List.drop_eq_getElem_cons (by simpa using hi)]
  simp [frameBits]

theorem length_segList : (segList k c).length = 67 := by simp [segList, leaderSymbol, stopSymbol]

theorem take_two_segList : (segList k c).take 2 = leaderSymbol k := rfl

/-- Past the leader symbol and i data symbols stand the other data symbols and the stop symbol. -/
theorem drop_segList {i : Nat} (hi : i ≤ 32) : (segList k c).drop (2 + 2 * i) =
    ((frameBits (assembled k c)).drop i).flatMap (bitSymbol k) ++ stopSymbol k := by
  calc (segList k c).drop (2 + 2 * i)
      = ((frameBits (assembled k c)).flatMap (bitSymbol k) ++ stopSymbol k).drop (2 * i) := by
        rw [← List.drop_drop, segList, List.append_assoc]
        rfl
    _ = _ := by rw [List.drop_append_of_le_length (by simp; omega), drop_flatMap_bitSymbol]

/-- R47: data symbol i is the wire symbol of frame bit i. -/
theorem dataSymbol_segList {i : Nat} (hi : i < 32) :
    ((segList k c).drop (2 + 2 * i)).take 2 = bitSymbol k ((assembled k c).getLsbD i) := by
  rw [drop_segList k c hi.le, drop_frameBits _ hi]
  rfl

theorem drop_66_segList : (segList k c).drop 66 = stopSymbol k := by
  calc (segList k c).drop (2 + 2 * 32)
      = ((frameBits (assembled k c)).drop 32).flatMap (bitSymbol k) ++ stopSymbol k := drop_segList k c le_rfl
    _ = stopSymbol k := by rw [List.drop_of_length_le (by simp)]; rfl

end segmentList

/-- R46 under the source's durations, which do not depend on the device identifier. -/
theorem bitSymbol_source (D : BitVec 16) (b : Bool) : bitSymbol { cfg with deviceId := D } b =
    if b then [.burst 560, .space 565] else [.burst 560, .space 1690] := by
  cases b <;> rfl

section assembledBits
variable (k : Config) (c : Cmd) {i : Nat}

theorem assembled_getLsbD_device (hi : i < 16) : (assembled k c).getLsbD i = k.deviceId.getLsbD i := by
  simp [assembled, frameOf_getLsbD, hi]

theorem assembled_getLsbD_command (hi : i < 8) : (assembled k c).getLsbD (16 + i) = c.getLsbD i := by
  simp [assembled, frameOf_getLsbD, show 16 + i < 24 by omega]

theorem assembled_getLsbD_remote (hi : 24 ≤ i) : (assembled k c).getLsbD i = k.remoteId.getLsbD (i - 24) := by
  simp [assembled, frameOf_getLsbD, show ¬ i < 16 by omega, show ¬ i < 24 by omega]

end assembledBits

/-- R44 with the source's `REMOTE_ID`, which is 1: from bit 24 on, bit 24 is the only one set. -/
theorem assembled_getLsbD_remote_source (D : BitVec 16) (c : Cmd) {i : Nat} (hi : 24 ≤ i) :
    (assembled { cfg with deviceId := D } c).getLsbD i = decide (i = 24) := by
  rw [assembled_getLsbD_remote _ c hi, cfg_remoteId, BitVec.getLsbD_one]
  simp
  omega

/-- Settles O42: the segment list taken apart at its symbols, and the frame word at its fields; the remote identifier is
1, so bit 24 is the only one set in the topmost field. -/
theorem frameOnTheWireIsItsSymbols : Obligations.FrameOnTheWireIsItsSymbols := by
  intro D c k
  refine ⟨length_segList k c, take_two_segList k c, fun i hi => ?_, drop_66_segList k c,
    fun i => assembled_getLsbD_device k c, fun i => assembled_getLsbD_command k c,
    assembled_getLsbD_remote_source D c le_rfl, fun i hi => ?_⟩
  · rw [dataSymbol_segList k c hi]
    exact bitSymbol_source D _
  · rw [assembled_getLsbD_remote_source D c hi.le]
    simp
    omega

end Sys2Proof.Machine
end

section
/-! The carrier modulator: one tick of a burst in the wired block (40_carrier_modulator.md R66). -/

namespace Sys2Proof.Machine

section tickOfABurst
variable {io : Ports} {r : Registers}

/-- No phase is both a mark and a space (R12). -/
theorem Phase.not_isMark_of_isSpace {p : Phase} (h : p.isSpace = true) : ¬ p.isMark = true := by
  cases p <;> simp_all [Phase.isMark, Phase.isSpace]

/-- R66's three arms: of the cases of a tick, those that a mark phase leaves. -/
theorem tick_mark_cases (hr : io.rst = false) (hl : legal cfg r = true) (hp : r.phase.isMark = true) :
    (r.cph.toNat < 25 ∧ tick cfg io r = { r with cph := r.cph + 1 }) ∨
    (r.cph = 25 ∧ 1 < r.crem.toNat ∧ tick cfg io r = { r with crem := r.crem - 1, cph := 0 }) ∨
    (r.cph = 25 ∧ r.crem = 1 ∧ (tick cfg io r).phase ≠ r.phase) := by
  rcases tick_legal_cases hr hl with ⟨idle, -⟩ | ⟨idle, -⟩ | ⟨-, inside⟩ | ⟨-, cycleEnd⟩ | ⟨space, -⟩ |
    ⟨lead, hc, hm, e⟩ | ⟨space, -⟩ | ⟨bit, hc, hm, e⟩ | ⟨space, -⟩ | ⟨space, -⟩ | ⟨stop, hc, hm, e⟩
  · exact absurd idle (Phase.isMark_ne_idle hp)
  · exact absurd idle (Phase.isMark_ne_idle hp)
  · exact .inl inside
  · exact .inr (.inl cycleEnd)
  · exact absurd hp (Phase.not_isMark_of_isSpace space)
  · exact .inr (.inr ⟨hc, hm, by simp [e, lead, endLeadMark]⟩)
  · simp [space, Phase.isMark] at hp
  · exact .inr (.inr ⟨hc, hm, by simp [e, bit, endBitMark]⟩)
  · simp [space, Phase.isMark] at hp
  · simp [space, Phase.isMark] at hp
  · exact .inr (.inr ⟨hc, hm, by simp [e, stop, endStopMark]⟩)

/-- R66's first arm. -/
theorem tick_insideCycle (hr : io.rst = false) (hl : legal cfg r = true) (hp : r.phase.isMark = true)
    (hc : r.cph.toNat < 25) : tick cfg io r = { r with cph := r.cph + 1 } := by
  rcases tick_mark_cases hr hl hp with ⟨-, e⟩ | ⟨h, -⟩ | ⟨h, -⟩
  · exact e
  · simp [h] at hc
  · simp [h] at hc

/-- R66's second arm. -/
theorem tick_cycleEnd (hr : io.rst = false) (hl : legal cfg r = true) (hp : r.phase.isMark = true)
    (hc : r.cph = 25) (hm : 1 < r.crem.toNat) : tick cfg io r = { r with crem := r.crem - 1, cph := 0 } := by
  rcases tick_mark_cases hr hl hp with ⟨h, -⟩ | ⟨-, -, e⟩ | ⟨-, h, -⟩
  · simp [hc] at h
  · exact e
  · simp [h] at hm

/-- R66's third arm: the segment ends. -/
theorem tick_burstEnd_phase (hr : io.rst = false) (hl : legal cfg r = true) (hp : r.phase.isMark = true)
    (hc : r.cph = 25) (hm : r.crem = 1) : (tick cfg io r).phase ≠ r.phase := by
  rcases tick_mark_cases hr hl hp with ⟨h, -⟩ | ⟨-, h, -⟩ | ⟨-, -, e⟩
  · simp [hc] at h
  · simp [hm] at h
  · exact e

end tickOfABurst

/-- Settles O6: each arm of R66 is the tick's own; `CPH` below 25 has room to count up, `CREM` above 1 to count down. -/
theorem carrierTickCounts : Obligations.CarrierTickCounts := by
  intro s hb hl hr hp
  have hstep := step_wired_legal hb hr hl
  refine ⟨fun hc => ⟨?_, ?_⟩, fun hc hm => ⟨?_, ?_⟩, fun hc hm => ⟨_, hstep, ?_⟩⟩
  · rw [hstep, tick_insideCycle hr hl hp hc]
  · exact BitVec.toNat_add_of_lt (by simp; omega)
  · rw [hstep, tick_cycleEnd hr hl hp hc hm]
  · exact BitVec.toNat_sub_of_le (BitVec.le_def.2 hm.le)
  · exact tick_burstEnd_phase hr hl hp hc hm

end Sys2Proof.Machine
end

section
/-! The timing sequencer: the last tick of each segment, the acceptance of a command, and the nominal frame time
(42_timing_sequencer.md R90 to R99). -/

namespace Sys2Proof.Machine

/-! ### Starting a segment (R65, R87) -/

section startOfASegment
variable {k : Config} {p : Phase} {d : Nat} {r : Registers}

/-- R87's entry, where no counter has outgrown its register: the extensions stay 0. -/
theorem enterSpace_eq (hm : r.cremExt = 0) (hc : r.cphExt = 0) :
    enterSpace p d r = { r with phase := p, srem := BitVec.ofNat 16 d, crem := 0, cph := 0 } := by
  simp [enterSpace, setCycles, setIndex, hm, hc]

/-- R65's start of a burst whose cycle count fits `CREM` (R14): the extensions stay 0. -/
theorem enterMark_eq (hd : cycles k d ≤ 4095) (hm : r.cremExt = 0) (hc : r.cphExt = 0) :
    enterMark k p d r = { r with phase := p, crem := BitVec.ofNat 12 (cycles k d), cph := 0, srem := 0 } := by
  have fits : cycles k d < 4096 := by omega
  simp [enterMark, setCycles, setIndex, hm, hc, fits]

end startOfASegment

/-! ### The last tick of a segment (R89) -/

section lastTick
variable {io : Ports} {r : Registers}

/-- Under the source's values the counters of legal registers fit `CREM` and `CPH` in a mark phase (R14, R15). -/
theorem legal_mark_ext (hl : legal cfg r = true) (hp : r.phase.isMark = true) : r.cremExt = 0 ∧ r.cphExt = 0 := by
  obtain ⟨hm, -, hc, -⟩ := markOk_ext (legal_mark hl hp) (by simp)
  exact ⟨hm, hc⟩

/-- In a space phase no burst is in progress (R23). -/
theorem legal_space_ext (hl : legal cfg r = true) (hp : r.phase.isSpace = true) : r.cremExt = 0 ∧ r.cphExt = 0 := by
  obtain ⟨-, -, -, -, hm, hc⟩ := spaceOk_iff.1 (legal_space hl hp)
  exact ⟨hm, hc⟩

theorem lastBurstTick_of_legal (hl : legal cfg r = true) (hp : r.phase.isMark = true) (hc : r.cph = 25)
    (hm : r.crem = 1) : lastBurstTick cfg r = true := (lastBurstTick_iff (legal_mark hl hp) (by simp)).2 ⟨hc, hm⟩

theorem lastSpaceTick_of_legal (hl : legal cfg r = true) (hp : r.phase.isSpace = true) (hs : r.srem = 1) :
    lastSpaceTick r = true := (lastSpaceTick_iff (legal_space hl hp)).2 hs

/-- R91. -/
theorem tick_lastLeadMark (hr : io.rst = false) (hl : legal cfg r = true) (hp : r.phase = .leadMark)
    (hc : r.cph = 25) (hm : r.crem = 1) : tick cfg io r = endLeadMark cfg r := by
  simp [tick, hr, hp, lastBurstTick_of_legal hl (by rw [hp]; rfl) hc hm]

/-- R92. -/
theorem tick_lastLeadSpace (hr : io.rst = false) (hl : legal cfg r = true) (hp : r.phase = .leadSpace)
    (hs : r.srem = 1) : tick cfg io r = endLeadSpace cfg r := by
  simp [tick, hr, hp, lastSpaceTick_of_legal hl (by rw [hp]; rfl) hs]

/-- R94. -/
theorem tick_lastBitMark (hr : io.rst = false) (hl : legal cfg r = true) (hp : r.phase = .bitMark)
    (hc : r.cph = 25) (hm : r.crem = 1) : tick cfg io r = endBitMark cfg r := by
  simp [tick, hr, hp, lastBurstTick_of_legal hl (by rw [hp]; rfl) hc hm]

/-- R95. -/
theorem tick_lastBitSpace (hr : io.rst = false) (hl : legal cfg r = true) (hp : r.phase = .bitSpace)
    (hs : r.srem = 1) : tick cfg io r = endBitSpace cfg r := by
  simp [tick, hr, hp, lastSpaceTick_of_legal hl (by rw [hp]; rfl) hs]

/-- R96. -/
theorem tick_lastStopMark (hr : io.rst = false) (hl : legal cfg r = true) (hp : r.phase = .stopMark)
    (hc : r.cph = 25) (hm : r.crem = 1) : tick cfg io r = endStopMark r := by
  simp [tick, hr, hp, lastBurstTick_of_legal hl (by rw [hp]; rfl) hc hm]

/-- R95 under the source's values, whose bit mark and stop mark are both of 22 cycles; `BITCNT` is tested before the
decrement. -/
theorem endBitSpace_cfg (hm : r.cremExt = 0) (hc : r.cphExt = 0) :
    endBitSpace cfg r = { shift r with
      phase := if 1 < r.bitcnt.toNat then .bitMark else .stopMark
      crem := 22
      cph := 0
      srem := 0 } := by
  by_cases more : 1 < r.bitcnt.toNat
  · rw [endBitSpace, if_pos more, if_pos more, enterMark_eq (r := shift r) (by simp) hm hc]
    simp
  · rw [endBitSpace, if_neg more, if_neg more, enterMark_eq (r := shift r) (by simp) hm hc]
    simp

/-- R94 under the source's values: the short space after a 1. -/
theorem ofNat_bitSpaceOf_cfg (b : Bool) : BitVec.ofNat 16 (bitSpaceOf cfg b) = if b then 565 else 1690 := by
  cases b <;> rfl

/-- R96: with `FRAME` and `BITCNT` shifted out, nothing but `DONE` is set. -/
theorem endStopMark_eq (hf : r.frame = 0) (hb : r.bitcnt = 0) :
    endStopMark r = { Registers.reset with done := true } := by
  simp [endStopMark, leaveSegment, setCycles, setIndex, Registers.reset, hf, hb]

end lastTick

/-- Settles O11: after SHIFT either arm of R95 starts a burst of 22 cycles. -/
theorem bitSpaceEnds : Obligations.BitSpaceEnds := by
  intro s hb hl hr hp hs
  obtain ⟨hm, hc⟩ := legal_space_ext hl (by rw [hp]; rfl)
  rw [step_wired_legal hb hr hl, tick_lastBitSpace hr hl hp hs, endBitSpace_cfg hm hc]
  rfl

/-- Settles O8. -/
theorem leaderMarkEnds : Obligations.LeaderMarkEnds := by
  intro s hb hl hr hp hc hm
  obtain ⟨hx, hy⟩ := legal_mark_ext hl (by rw [hp]; rfl)
  rw [step_wired_legal hb hr hl, tick_lastLeadMark hr hl hp hc hm, endLeadMark, enterSpace_eq hx hy]
  rfl

/-- Settles O9: `BITCNT` is 32 until the first data bit has gone (R25 d). -/
theorem leaderSpaceEnds : Obligations.LeaderSpaceEnds := by
  intro s hb hl hr hp hs
  obtain ⟨hm, hc⟩ := legal_space_ext hl (by rw [hp]; rfl)
  refine ⟨?_, (legal_lead hl (.inr hp)).1⟩
  rw [step_wired_legal hb hr hl, tick_lastLeadSpace hr hl hp hs, endLeadSpace, enterMark_eq (by simp) hm hc]
  simp

/-- Settles O10. -/
theorem bitMarkEnds : Obligations.BitMarkEnds := by
  intro s hb hl hr hp hc hm
  obtain ⟨hx, hy⟩ := legal_mark_ext hl (by rw [hp]; rfl)
  rw [step_wired_legal hb hr hl, tick_lastBitMark hr hl hp hc hm, endBitMark, enterSpace_eq hx hy,
    ofNat_bitSpaceOf_cfg]
  rfl

/-- Settles O12: in the stop mark `FRAME` and `BITCNT` are 0 (R25 f), so R96 leaves only `DONE` set. -/
theorem stopMarkEnds : Obligations.StopMarkEnds := by
  intro s hb hl hr hp hc hm
  obtain ⟨bits, frame⟩ := legal_stop hl hp
  refine ⟨_, ?_, rfl, rfl, rfl, rfl⟩
  rw [step_wired_legal hb hr hl, tick_lastStopMark hr hl hp hc hm, endStopMark_eq frame bits]

/-! ### Acceptance of a command (R90) -/

/-- R90 writes every register: nothing of the value before it is left. -/
theorem accept_eq (k : Config) (c : Cmd) (r : Registers) : accept k c r =
    { phase := .leadMark
      frame := assembled k c
      bitcnt := 32
      crem := BitVec.ofNat 12 (cycles k k.tLeadMark)
      cph := 0
      srem := 0
      done := false
      cremExt := cycles k k.tLeadMark / 2 ^ 12 } := rfl

/-- Settles O16: SEND presents its command to the block, which accepts it in `IDLE`; the leader burst's 347 cycles fit
`CREM`. -/
theorem sendIsAcceptedInIdle : Obligations.SendIsAcceptedInIdle := by
  intro c s hl hp
  rw [exec_eq_execIn, execIn_command rfl, blockTick_present_idle cfg_valid hl hp, accept_eq]
  simp [assembled, frameOf]

/-! ### The nominal frame time (R99) -/

section sumOverTheFrame
variable (k : Config) (g : Seg → Nat)

/-- A sum over data symbols is that of the symbol of a 1 for each 1, and of the symbol of a 0 for each 0. -/
theorem sum_flatMap_bitSymbol (bs : List Bool) : ((bs.flatMap (bitSymbol k)).map g).sum =
    bs.count true * ((bitSymbol k true).map g).sum + bs.count false * ((bitSymbol k false).map g).sum := by
  induction bs with
  | nil => simp
  | cons b bs ih =>
    rw [List.flatMap_cons, List.map_append, List.sum_append, ih]
    cases b <;> simp only [List.count_cons_self, ne_eq, reduceCtorEq, not_false_eq_true, List.count_cons_of_ne] <;> ring

theorem ones_add_zeros (c : Cmd) : ones k c + (frameBits (assembled k c)).count false = 32 := by
  rw [ones, List.count_true_add_count_false, length_frameBits]

/-- n1 is at most the number of data bits. -/
theorem ones_le (c : Cmd) : ones k c ≤ 32 := by
  have := ones_add_zeros k c
  omega

/-- A sum over the segment list is that of its symbols, n1 of them being symbols of a 1 (R47). -/
theorem sum_segList (c : Cmd) : ((segList k c).map g).sum =
    ((leaderSymbol k).map g).sum +
      (ones k c * ((bitSymbol k true).map g).sum + (32 - ones k c) * ((bitSymbol k false).map g).sum) +
      ((stopSymbol k).map g).sum := by
  have zeros : (frameBits (assembled k c)).count false = 32 - ones k c := by
    have := ones_add_zeros k c
    omega
  rw [segList, List.map_append, List.map_append, List.sum_append, List.sum_append, sum_flatMap_bitSymbol, zeros, ones]

end sumOverTheFrame

/-- Settles O44: the symbols of a 1 and of a 0 are of 560 + 565 and 560 + 1690 microseconds, whatever the device
identifier; the rest is counting the n1 symbols of a 1 among 32. -/
theorem nominalFrameTime : Obligations.NominalFrameTime := by
  intro D c k
  have leader : ((leaderSymbol k).map requested).sum = 9000 + 4500 := rfl
  have one : ((bitSymbol k true).map requested).sum = 560 + 565 := rfl
  have zero : ((bitSymbol k false).map requested).sum = 560 + 1690 := rfl
  have stop : ((stopSymbol k).map requested).sum = 560 := rfl
  have sum := sum_segList k requested c
  rw [leader, one, zero, stop] at sum
  have bound := ones_le k c
  rw [tNominal, sum]
  omega

end Sys2Proof.Machine
end

section
/-! The order in which one tick examines its inputs (60_exceptions.md R124). -/

namespace Sys2Proof.Machine

section tickByInputs
variable {k : Config} {io : Ports} {r : Registers}

/-- A command presented in `IDLE` is accepted (R90). -/
theorem tick_idle_start (h : io.rst = false) (hp : r.phase = .idle) (hs : io.start = true) :
    tick k io r = accept k io.cmd r := by
  simp [tick, h, hp, hs]

/-- With nothing presented in `IDLE`, only `DONE` is lowered (R97). -/
theorem tick_idle_quiet (h : io.rst = false) (hp : r.phase = .idle) (hs : io.start = false) :
    tick k io r = lowerDone r := by
  simp [tick, h, hp, hs]

/-- Reset comes first, whether or not the registers before it were legal (R135). -/
theorem blockTick_reset {s : State} (hk : k.valid = true) (h : io.rst = true) :
    blockTick k io s = .next { s with regs := Registers.reset, bench := none } := by
  simp [blockTick, tick, hk, h]

end tickByInputs

/-- Settles O5: the step is the block's tick, whose case the inputs choose; outside `IDLE` that tick reads no port but
reset. -/
theorem inputsAreExaminedInOrder : Obligations.InputsAreExaminedInOrder := by
  intro s hb hl
  refine ⟨fun hr => ?_, fun hr hp => ?_, fun hr hp hs => ?_, fun hr hp hs => ?_⟩
  · exact ⟨_, (step_wired hb).trans (blockTick_reset cfg_valid hr), rfl⟩
  · rw [step_wired_legal hb hr hl, tick_busy_ports hr (io' := Ports.quiet) rfl hp]
  · rw [step_wired_legal hb hr hl, tick_idle_start hr hp hs]
  · rw [step_wired_legal hb hr hl, tick_idle_quiet hr hp hs]
    rfl

end Sys2Proof.Machine
end

section
/-! The decoder and the encoder: round trips on words and on plain numbers, and a name is `SEND` of its
code (30_encoding.md R40 to R50). -/

namespace Sys2Proof.Machine

/-! ### Command bytes -/

section commandBytes
variable {k : Config} {i : Instr} {c : Cmd}

/-- R42: every operation a caller can issue is written as its command byte. -/
theorem encode_command (h : i.command? k = some c) : encode k i = .cmd8 c := by
  cases i <;> cases h <;> rfl

/-- A well-formed operation is the first reading of its command byte, in the order in which the decoder tries the names. -/
theorem decodeCmd8_of_wellFormed (h : i.command? k = some c) (hw : i.wellFormed k = true) : decodeCmd8 k c = i := by
  cases i <;> cases h <;> simp_all [Instr.wellFormed, namedCodes, decodeCmd8]

theorem wellFormed_decodeCmd8 (k : Config) (c : Cmd) : (decodeCmd8 k c).wellFormed k = true := by
  unfold decodeCmd8
  split_ifs <;> simp_all [Instr.wellFormed, namedCodes]

end commandBytes

/-! ### Words for the bench -/

/-- R48: bit 16 and the sixteen bits below it are the whole of a SEG17 word. -/
theorem encode_decodeSeg17 (k : Config) (w : SegWord) : encode k (decodeSeg17 w) = .bench (.seg17 w) := by
  have low : ∀ j, j < 16 → (w.extractLsb' 0 16).getLsbD j = w.getLsbD j := fun j hj => by simp [hj]
  have top : ∀ j, ¬ j < 16 → j < 17 → j = 16 := by omega
  cases hb : w.getLsbD 16
  · have word : (Seg.space (w.extractLsb' 0 16)).word = w := BitVec.eq_of_getLsbD_eq fun j hj => by
      rw [Seg.word_space_getLsbD]
      split
      · exact low j ‹_›
      · rw [top j ‹_› hj, hb]
    rw [decodeSeg17, hb, if_neg Bool.false_ne_true, encode, word]
  · have word : (Seg.burst (w.extractLsb' 0 16)).word = w := BitVec.eq_of_getLsbD_eq fun j hj => by
      rw [Seg.word_burst_getLsbD]
      split
      · exact low j ‹_›
      · simp [top j ‹_› hj, hb]
    rw [decodeSeg17, hb, if_pos rfl, encode, word]

/-- R44: the three fields are the whole of a FRAME32 word. -/
theorem frame32_extract {k : Config} {w : FrameWord} (hr : w.extractLsb' 24 8 = k.remoteId) :
    frame32 k (w.extractLsb' 16 8) (w.extractLsb' 0 16) = w := BitVec.eq_of_getLsbD_eq fun j hj => by
  rw [frame32_getLsbD, ← hr]
  simp only [BitVec.getLsbD_extractLsb']
  split
  · simp [*]
  · split
    · simp [show j - 16 < 8 by omega, show 16 + (j - 16) = j by omega]
    · simp [show j - 24 < 8 by omega, show 24 + (j - 24) = j by omega]

/-- The three answers of the decoder to a FRAME32 word (R44, R50). -/
theorem decodeFrame32_cases (k : Config) (w : FrameWord) :
    (w.extractLsb' 24 8 ≠ k.remoteId ∧ decodeFrame32 k w = .error .otherRemoteId) ∨
    (w.extractLsb' 0 16 ≠ k.deviceId ∧ decodeFrame32 k w = .error .otherDeviceId) ∨
    (w.extractLsb' 24 8 = k.remoteId ∧ w.extractLsb' 0 16 = k.deviceId ∧
      decodeFrame32 k w = .ok (.assemble (w.extractLsb' 16 8) (w.extractLsb' 0 16))) := by
  by_cases hr : w.extractLsb' 24 8 = k.remoteId
  · by_cases hd : w.extractLsb' 0 16 = k.deviceId
    · exact .inr (.inr ⟨hr, hd, by simp [decodeFrame32, hr, hd]⟩)
    · exact .inr (.inl ⟨hd, by simp [decodeFrame32, hr, hd]⟩)
  · exact .inl ⟨hr, by simp [decodeFrame32, hr]⟩

theorem encode_decodeWire1 (k : Config) (b : BitVec 1) : encode k (decodeWire1 b) = .bench (.wire1 b) := by
  rcases BitVec.eq_zero_or_eq_one b with rfl | rfl <;> rfl

/-- A bench word that is read is well formed and is written as it was. -/
theorem decodeBench_ok {k : Config} {w : BenchWord} {i : Instr} (h : decodeBench k w = .ok i) :
    i.wellFormed k = true ∧ encode k i = .bench w := by
  cases w with
  | seg17 w =>
    cases h
    exact ⟨by unfold decodeSeg17; split <;> rfl, encode_decodeSeg17 k w⟩
  | frame32 w =>
    rcases decodeFrame32_cases k w with ⟨-, e⟩ | ⟨-, e⟩ | ⟨hr, hd, e⟩ <;> cases e.symm.trans h
    exact ⟨by simp [Instr.wellFormed, hd], by simp [encode, frame32_extract hr]⟩
  | wire1 b =>
    cases h
    exact ⟨by unfold decodeWire1; split <;> rfl, encode_decodeWire1 k b⟩
  | shift | leader | stop =>
    cases h
    exact ⟨rfl, rfl⟩

/-- The bench words that are rejected are frame words of another build. -/
theorem decodeBench_error {k : Config} {w : BenchWord} {why : Reject} (h : decodeBench k w = .error why) :
    ∃ f : FrameWord, w = .frame32 f ∧
      ((why = .otherRemoteId ∧ f.extractLsb' 24 8 ≠ k.remoteId) ∨
        (why = .otherDeviceId ∧ f.extractLsb' 0 16 ≠ k.deviceId)) := by
  cases w with
  | frame32 w =>
    refine ⟨w, rfl, ?_⟩
    rcases decodeFrame32_cases k w with ⟨hr, e⟩ | ⟨hd, e⟩ | ⟨-, -, e⟩ <;> cases e.symm.trans h
    · exact .inl ⟨rfl, hr⟩
    · exact .inr ⟨rfl, hd⟩
  | seg17 _ | wire1 _ | shift | leader | stop => cases h

/-! ### Round trips on words -/

/-- Settles O26: a command by the order of the names, a segment, frame or data symbol by its fields. -/
theorem decodeReadsWhatEncodeWrites : Obligations.DecodeReadsWhatEncodeWrites := by
  intro k i hw
  have command : ∀ c, i.command? k = some c → decode k (encode k i) = .ok i := fun c h => by
    rw [encode_command h, decode, decodeCmd8_of_wellFormed h hw]
  cases i with
  | send _ | menu | play | left | right | up | down => exact command _ rfl
  | burst t => exact congrArg Except.ok (decodeSeg17_burst t)
  | space t => exact congrArg Except.ok (decodeSeg17_space t)
  | assemble c d =>
    obtain rfl : d = k.deviceId := by simpa [Instr.wellFormed] using hw
    exact decodeFrame32_frame32 k c
  | shift | bit1 | bit0 | leader | stop => rfl

/-- Settles O27: a byte is read as one operation with that command; a bench word by its fields. -/
theorem everyWordHasOneReading : Obligations.EveryWordHasOneReading := by
  intro k w
  cases w with
  | cmd8 c =>
    refine ⟨fun i h => ?_, fun why h => by cases h⟩
    cases h
    exact ⟨wellFormed_decodeCmd8 k c, encode_command (decodeCmd8_command k c)⟩
  | bench w =>
    refine ⟨fun i => decodeBench_ok, fun why h => ?_⟩
    obtain ⟨f, rfl, hf⟩ := decodeBench_error h
    exact ⟨f, rfl, hf⟩

/-! ### Plain numbers -/

/-- The number of every operation's word is laid out as that word again. -/
theorem laidOut : ∀ i : Instr, Laws.LaidOut.Statement i
  | .send c => Laws.LaidOut.send c
  | .menu => Laws.LaidOut.menu
  | .play => Laws.LaidOut.play
  | .left => Laws.LaidOut.left
  | .right => Laws.LaidOut.right
  | .up => Laws.LaidOut.up
  | .down => Laws.LaidOut.down
  | .burst t => Laws.LaidOut.burst t
  | .space t => Laws.LaidOut.space t
  | .assemble c d => Laws.LaidOut.assemble c d
  | .shift => Laws.LaidOut.shift
  | .bit1 => Laws.LaidOut.bit1
  | .bit0 => Laws.LaidOut.bit0
  | .leader => Laws.LaidOut.leader
  | .stop => Laws.LaidOut.stop

theorem decodeNumber_of_layOut {k : Config} {n w : Nat} {cw : CodeWord} (h : layOut n w = .ok cw) :
    decodeNumber k n w = decode k cw := by
  simp only [decodeNumber, h]

theorem decodeNumber_strayBits {k : Config} {n w : Nat} (h : layOut n w = .error .strayBits) :
    decodeNumber k n w = .error .strayBits := by
  simp only [decodeNumber, h]

/-- The host's decoder and `decodeNumber` read the same operations. -/
theorem decodeTableWord_eq_some {n w : Nat} {i : Instr} :
    decodeTableWord n w = some i ↔ decodeNumber cfg n w = .ok i := by
  unfold decodeTableWord
  cases decodeNumber cfg n w <;> simp

/-- Settles O28: a number is laid out as its word, which reads as its operation; a number as large as its format has
words has a bit too many. -/
theorem numberedWordsDecode : Obligations.NumberedWordsDecode := by
  refine ⟨fun k i n w hw hn => ?_, fun k n w hn hle => ?_, fun k w hle => ?_, fun n w i => decodeTableWord_eq_some⟩
  · obtain ⟨h, h24⟩ := laidOut i k n w hn
    have read : decode k (encode k i) = .ok i := decodeReadsWhatEncodeWrites k i hw
    exact ⟨(decodeNumber_of_layOut h).trans read, fun h17 => (decodeNumber_of_layOut (h24 h17)).trans read⟩
  · simp only [List.mem_cons, List.not_mem_nil, or_false] at hn
    rcases hn with rfl | rfl | rfl | rfl <;>
      exact decodeNumber_strayBits (by simp [layOut]; omega)
  · exact decodeNumber_strayBits (by simpa [layOut] using hle)

/-- Settles O29. -/
theorem sampleWordsDecode : Obligations.SampleWordsDecode := by
  unfold Obligations.SampleWordsDecode
  decide

/-! ### Names -/

/-- Settles O57: every operation a caller can issue presents its command to the block, and so does the reading of its
byte. -/
theorem namesAreAliasesOfSend : Obligations.NamesAreAliasesOfSend := by
  intro k i c h
  have send : ∀ s, execIn k i s = execIn k (.send c) s := fun s =>
    (execIn_command h s).trans (execIn_command rfl s).symm
  refine ⟨send, decodeCmd8 k c, by rw [encode_command h, decode], wellFormed_decodeCmd8 k c, fun s => ?_⟩
  rw [execIn_decodeCmd8_eq_send, send]

end Sys2Proof.Machine
end

section
/-! The invariant of the registers (10_state.md R25): a part about the counters, which the wired block and the bench share,
and a part about `FRAME` and `BITCNT`; every tick keeps both, under every record that meets the constraint of R3. -/

/-! ### The constraint of R3 -/

namespace Sys2Proof

/-- The requested durations of the frame sequence (R3). -/
def Config.durations (k : Config) : List Nat :=
  [k.tLeadMark, k.tLeadSpace, k.tBitMark, k.tOneSpace, k.tZeroSpace, k.tStopMark]

theorem Config.valid_iff {k : Config} : k.valid = true ↔ 1 ≤ k.tHigh ∧ ∀ d ∈ k.durations, 1 ≤ d ∧ d ≤ 65535 := by
  simp [Config.valid, Config.durOk, Config.durations, and_assoc]

theorem Config.durations_bounds {k : Config} (hk : k.valid = true) {d : Nat} (hd : d ∈ k.durations) :
    1 ≤ d ∧ d ≤ 65535 := (Config.valid_iff.1 hk).2 d hd

theorem Config.tCycle_pos {k : Config} (hk : k.valid = true) : 1 ≤ k.tCycle := by
  have := (Config.valid_iff.1 hk).1
  rw [Config.tCycle]
  omega

end Sys2Proof

namespace Sys2Proof.Machine

theorem bitSpaceOf_mem (k : Config) (b : Bool) : bitSpaceOf k b ∈ k.durations := by
  cases b <;> simp [bitSpaceOf, Config.durations]

theorem bitSpaceOf_le (k : Config) (b : Bool) : bitSpaceOf k b ≤ maxSpace k := by
  cases b <;> simp [bitSpaceOf, maxSpace]

/-! ### The two parts of the invariant -/

/-- The counters of the segment in progress, the count of cycles at most n and that of a space at most m (R25 a, b, c). -/
def countersOk (k : Config) (n m : Nat) (r : Registers) : Prop :=
  match r.phase with
  | .idle => noBurst r = true ∧ r.srem = 0
  | .leadMark | .bitMark | .stopMark => markOk k n r = true
  | .leadSpace | .bitSpace => spaceOk m r = true

/-- The frame encoder's registers (R25 d, e, f, g). -/
def encoderOk (k : Config) (r : Registers) : Prop :=
  match r.phase with
  | .idle | .stopMark => r.bitcnt = 0 ∧ r.frame = 0
  | .leadMark | .leadSpace => r.bitcnt = 32 ∧ frameOk k 0 r = true
  | .bitMark | .bitSpace => 1 ≤ r.bitcnt.toNat ∧ r.bitcnt.toNat ≤ 32 ∧ frameOk k (32 - r.bitcnt.toNat) r = true

section parts
variable {k : Config} {n m : Nat} {r r' : Registers}

theorem legal_iff : legal k r = true ↔
    (r.done = true → r.phase = .idle) ∧ countersOk k (maxCycles k) (maxSpace k) r ∧ encoderOk k r := by
  cases hp : r.phase <;> simp [legal, countersOk, encoderOk, hp] <;> tauto

theorem benchLegal_iff : benchLegal k r = true ↔
    (r.done = true → r.phase = .idle) ∧ countersOk k (cycles k 65535) 65535 r := by
  cases hp : r.phase <;> simp [benchLegal, countersOk, hp]

theorem noBurst_iff : noBurst r = true ↔ r.crem = 0 ∧ r.cph = 0 ∧ r.cremExt = 0 ∧ r.cphExt = 0 := by
  simp [noBurst, and_assoc]

theorem countersOk_idle (hp : r.phase = .idle) : countersOk k n m r ↔ noBurst r = true ∧ r.srem = 0 := by
  simp [countersOk, hp]

theorem countersOk_mark (hp : r.phase.isMark = true) : countersOk k n m r ↔ markOk k n r = true := by
  cases hq : r.phase <;> simp_all [countersOk, Phase.isMark]

theorem countersOk_space (hp : r.phase.isSpace = true) : countersOk k n m r ↔ spaceOk m r = true := by
  cases hq : r.phase <;> simp_all [countersOk, Phase.isSpace]

/-- R12: every phase is idle, a mark or a space. -/
theorem Phase.cases_kind (p : Phase) : p = .idle ∨ p.isMark = true ∨ p.isSpace = true := by
  cases p <;> simp [Phase.isMark, Phase.isSpace]

theorem frameOk_congr (hf : r'.frame = r.frame) : frameOk k n r' = frameOk k n r := by
  simp only [frameOk, hf]

@[simp] theorem frameOk_enterMark (p : Phase) (d : Nat) : frameOk k n (enterMark k p d r) = frameOk k n r := rfl

@[simp] theorem frameOk_enterSpace (p : Phase) (d : Nat) : frameOk k n (enterSpace p d r) = frameOk k n r := rfl

theorem encoderOk_congr (hp : r'.phase = r.phase) (hf : r'.frame = r.frame) (hb : r'.bitcnt = r.bitcnt) :
    encoderOk k r' ↔ encoderOk k r := by
  simp only [encoderOk, hp, hb, hf, frameOk_congr hf]

end parts

/-! ### A segment counts on -/

section countingOn
variable (k : Config) (r : Registers)

@[simp] theorem countBurst_phase : (countBurst k r).phase = r.phase := by unfold countBurst; split <;> rfl
@[simp] theorem countBurst_frame : (countBurst k r).frame = r.frame := by unfold countBurst; split <;> rfl
@[simp] theorem countBurst_bitcnt : (countBurst k r).bitcnt = r.bitcnt := by unfold countBurst; split <;> rfl
@[simp] theorem countBurst_srem : (countBurst k r).srem = r.srem := by unfold countBurst; split <;> rfl
@[simp] theorem countBurst_done : (countBurst k r).done = r.done := by unfold countBurst; split <;> rfl
@[simp] theorem countOn_phase : (countOn k r).phase = r.phase := by
  cases hp : r.phase <;> simp [countOn, countSpace, hp]
@[simp] theorem countOn_frame : (countOn k r).frame = r.frame := by
  cases hp : r.phase <;> simp [countOn, countSpace, hp]
@[simp] theorem countOn_bitcnt : (countOn k r).bitcnt = r.bitcnt := by
  cases hp : r.phase <;> simp [countOn, countSpace, hp]
@[simp] theorem countOn_done : (countOn k r).done = r.done := by
  cases hp : r.phase <;> simp [countOn, countSpace, hp]

variable {k r} {n m : Nat}

theorem countOn_mark (hp : r.phase.isMark = true) : countOn k r = countBurst k r := by
  cases hq : r.phase <;> simp_all [countOn, Phase.isMark]

theorem countOn_space (hp : r.phase.isSpace = true) : countOn k r = countSpace r := by
  cases hq : r.phase <;> simp_all [countOn, Phase.isSpace]

theorem running_mark (hp : r.phase.isMark = true) : running k r = !lastBurstTick k r := by
  cases hq : r.phase <;> simp_all [running, Phase.isMark]

theorem running_space (hp : r.phase.isSpace = true) : running k r = !lastSpaceTick r := by
  cases hq : r.phase <;> simp_all [running, Phase.isSpace]

theorem running_idle (hp : r.phase = .idle) : running k r = false := by
  simp [running, hp]

/-- R66 keeps the counters of a burst in range. -/
theorem markOk_countBurst (h : markOk k n r = true) (hl : lastBurstTick k r = false) :
    markOk k n (countBurst k r) = true := by
  obtain ⟨h1, h2, h3, h4⟩ := markOk_iff.1 h
  have hn := mt (lastBurstTick_iff_le (k := k) (r := r)).2 (by simp [hl])
  refine markOk_iff.2 ?_
  rw [countBurst_srem]
  unfold countBurst
  split
  · simp only [cyclesLeft_setIndex, tickIndex_setIndex]
    exact ⟨h1, h2, by omega, h4⟩
  · simp only [cyclesLeft_setCycles, tickIndex_setCycles, tickIndex_setIndex]
    exact ⟨by omega, by omega, by omega, h4⟩

theorem toNat_sub_one {w : Nat} {x : BitVec w} (h : 1 ≤ x.toNat) : (x - 1).toNat = x.toNat - 1 := by
  have := x.isLt
  have one : (1 : BitVec w).toNat = 1 := Nat.mod_eq_of_lt (show 1 < 2 ^ w by omega)
  rw [BitVec.toNat_sub_of_le (by rw [BitVec.le_def, one]; exact h), one]

/-- R87 keeps the counter of a space in range. -/
theorem spaceOk_countSpace (h : spaceOk m r = true) (hl : lastSpaceTick r = false) :
    spaceOk m (countSpace r) = true := by
  obtain ⟨h1, h2, hb⟩ := spaceOk_iff.1 h
  have more : 1 < r.srem.toNat := by simpa [lastSpaceTick] using hl
  refine spaceOk_iff.2 ⟨?_, ?_, hb⟩ <;> simp only [countSpace, toNat_sub_one h1] <;> omega

theorem countersOk_countOn (h : countersOk k n m r) (hr : running k r = true) : countersOk k n m (countOn k r) := by
  rcases r.phase.cases_kind with hp | hp | hp
  · simp [running_idle hp] at hr
  · rw [countersOk_mark (by simpa using hp), countOn_mark hp]
    exact markOk_countBurst ((countersOk_mark hp).1 h) (by simpa [running_mark hp] using hr)
  · rw [countersOk_space (by simpa using hp), countOn_space hp]
    exact spaceOk_countSpace ((countersOk_space hp).1 h) (by simpa [running_space hp] using hr)

end countingOn

/-! ### A segment starts, and the last one ends -/

section starting
variable {k : Config} {n m d : Nat} {p : Phase}

theorem countersOk_enterMark (hk : 1 ≤ k.tCycle) (hp : p.isMark = true) (h1 : 1 ≤ d) (hn : cycles k d ≤ n)
    (r : Registers) : countersOk k n m (enterMark k p d r) := by
  rw [countersOk_mark (by simpa using hp), markOk_iff]
  simp only [cyclesLeft_enterMark, tickIndex_enterMark, enterMark_srem]
  exact ⟨ceilDiv_pos hk h1, hn, hk, trivial⟩

theorem countersOk_enterSpace (hp : p.isSpace = true) (h1 : 1 ≤ d) (hd : d ≤ 65535) (hm : d ≤ m) (r : Registers) :
    countersOk k n m (enterSpace p d r) := by
  rw [countersOk_space (by simpa using hp), spaceOk_iff]
  simp only [enterSpace_srem, BitVec.toNat_ofNat, Nat.mod_eq_of_lt (show d < 2 ^ 16 by omega)]
  exact ⟨h1, hm, rfl, rfl, rfl, rfl⟩

theorem countersOk_leaveSegment (r : Registers) : countersOk k n m (leaveSegment r) := by
  rw [countersOk_idle rfl]
  exact ⟨rfl, rfl⟩

end starting

/-! ### One tick of the wired block, under every record -/

/-- What the sequencer does at the last tick of a segment (R91, R92, R94, R95, R96). -/
def endSegment (k : Config) (r : Registers) : Registers :=
  match r.phase with
  | .idle => r
  | .leadMark => endLeadMark k r
  | .leadSpace => endLeadSpace k r
  | .bitMark => endBitMark k r
  | .bitSpace => endBitSpace k r
  | .stopMark => endStopMark r

section oneTick
variable {k : Config} {io : Ports} {r : Registers}

theorem tick_last (hr : io.rst = false) (hb : r.phase ≠ .idle) (hl : running k r = false) :
    tick k io r = endSegment k r := by
  unfold running at hl
  unfold tick endSegment
  cases hp : r.phase <;> simp_all

/-- Without reset a tick accepts, idles, counts on, or ends a segment. -/
theorem tick_cases (k : Config) (hr : io.rst = false) (r : Registers) :
    (r.phase = .idle ∧ io.start = true ∧ tick k io r = accept k io.cmd r) ∨
    (r.phase = .idle ∧ io.start = false ∧ tick k io r = lowerDone r) ∨
    (r.phase ≠ .idle ∧ running k r = true ∧ tick k io r = countOn k r) ∨
    (r.phase ≠ .idle ∧ running k r = false ∧ tick k io r = endSegment k r) := by
  by_cases hp : r.phase = .idle
  · cases hs : io.start
    · exact .inr (.inl ⟨hp, rfl, tick_idle_quiet hr hp hs⟩)
    · exact .inl ⟨hp, rfl, tick_idle_start hr hp hs⟩
  · cases hq : running k r
    · exact .inr (.inr (.inr ⟨hp, rfl, tick_last hr hp hq⟩))
    · exact .inr (.inr (.inl ⟨hp, rfl, tick_running hr hq⟩))

/-! #### What `FRAME` and `BITCNT` are at the start of each segment -/

theorem frameOk_assembled {c : Cmd} (hf : r.frame = assembled k c) : frameOk k 0 r = true :=
  frameOk_iff.2 ⟨c, by simpa using hf⟩

/-- The last SHIFT leaves nothing of the frame (R81). -/
theorem frame_eq_zero_of_frameOk (h : frameOk k 32 r = true) : r.frame = 0 := by
  obtain ⟨c, hc⟩ := frameOk_iff.1 h
  rw [hc, frame_after_all_shifts]

/-- After the SHIFT at the end of a data bit's space that is not the last (R95). -/
theorem encoderOk_shift {q : Registers} (hp : r.phase = .bitSpace) (h : encoderOk k r) (hb : 1 < r.bitcnt.toNat)
    (hq : q.phase = .bitMark) (hf : q.frame = (shift r).frame) (hc : q.bitcnt = (shift r).bitcnt) :
    encoderOk k q := by
  simp only [encoderOk, hp] at h
  obtain ⟨h1, h2, h3⟩ := h
  simp only [encoderOk, hq, hc, frameOk_congr hf, shift_bitcnt, toNat_sub_one h1]
  refine ⟨by omega, by omega, ?_⟩
  rw [show 32 - (r.bitcnt.toNat - 1) = 32 - r.bitcnt.toNat + 1 by omega]
  exact frameOk_shift h3

/-- After the SHIFT at the end of the last data bit's space (R95). -/
theorem encoderOk_lastShift {q : Registers} (hp : r.phase = .bitSpace) (h : encoderOk k r)
    (hb : ¬ 1 < r.bitcnt.toNat) (hq : q.phase = .stopMark) (hf : q.frame = (shift r).frame)
    (hc : q.bitcnt = (shift r).bitcnt) : encoderOk k q := by
  simp only [encoderOk, hp] at h
  obtain ⟨h1, h2, h3⟩ := h
  have one : r.bitcnt.toNat = 1 := by omega
  simp only [encoderOk, hq, hc, hf]
  refine ⟨BitVec.eq_of_toNat_eq (by rw [shift_bitcnt, toNat_sub_one h1, one]; rfl), ?_⟩
  rw [one] at h3
  exact frame_eq_zero_of_frameOk (frameOk_shift h3)

theorem encoderOk_endSegment (h : encoderOk k r) (hb : r.phase ≠ .idle) : encoderOk k (endSegment k r) := by
  cases hp : r.phase with
  | idle => exact absurd hp hb
  | leadMark => simpa [encoderOk, hp, endSegment, endLeadMark] using h
  | leadSpace =>
    simp only [encoderOk, hp] at h
    obtain ⟨h1, h2⟩ := h
    simp [encoderOk, hp, endSegment, endLeadSpace, h1, h2]
  | bitMark => simpa [encoderOk, hp, endSegment, endBitMark] using h
  | bitSpace =>
    simp only [endSegment, hp, endBitSpace]
    by_cases more : 1 < r.bitcnt.toNat
    · rw [if_pos more]
      exact encoderOk_shift hp h more rfl rfl rfl
    · rw [if_neg more]
      exact encoderOk_lastShift hp h more rfl rfl rfl
  | stopMark => simpa [encoderOk, hp, endSegment, endStopMark] using h

theorem countersOk_endSegment (hk : k.valid = true) (hb : r.phase ≠ .idle) :
    countersOk k (maxCycles k) (maxSpace k) (endSegment k r) := by
  have cyc := Config.tCycle_pos hk
  have dur := fun d => Config.durations_bounds hk (d := d)
  cases hp : r.phase with
  | idle => exact absurd hp hb
  | leadMark =>
    obtain ⟨h1, h2⟩ := dur k.tLeadSpace (by simp [Config.durations])
    simp only [endSegment, hp, endLeadMark]
    exact countersOk_enterSpace rfl h1 h2 (by simp [maxSpace]) r
  | leadSpace =>
    obtain ⟨h1, -⟩ := dur k.tBitMark (by simp [Config.durations])
    simp only [endSegment, hp, endLeadSpace]
    exact countersOk_enterMark cyc rfl h1 (by simp [maxCycles]) r
  | bitMark =>
    obtain ⟨h1, h2⟩ := dur _ (bitSpaceOf_mem k (currentBit r))
    simp only [endSegment, hp, endBitMark]
    exact countersOk_enterSpace rfl h1 h2 (bitSpaceOf_le k _) r
  | bitSpace =>
    obtain ⟨h1, -⟩ := dur k.tBitMark (by simp [Config.durations])
    obtain ⟨h1', -⟩ := dur k.tStopMark (by simp [Config.durations])
    simp only [endSegment, hp, endBitSpace]
    split
    · exact countersOk_enterMark cyc rfl h1 (by simp [maxCycles]) _
    · exact countersOk_enterMark cyc rfl h1' (by simp [maxCycles]) _
  | stopMark =>
    simp only [endSegment, hp]
    exact (countersOk_idle rfl).2 ⟨rfl, rfl⟩

theorem endSegment_done (hd : r.done = false) : (endSegment k r).done = true → (endSegment k r).phase = .idle := by
  cases hp : r.phase <;>
    simp [endSegment, hp, endLeadMark, endLeadSpace, endBitMark, endBitSpace, endStopMark, hd, apply_ite]

theorem legal_accept (hk : k.valid = true) (c : Cmd) (r : Registers) : legal k (accept k c r) = true := by
  obtain ⟨h1, -⟩ := Config.durations_bounds hk (d := k.tLeadMark) (by simp [Config.durations])
  exact legal_iff.2 ⟨by simp [accept],
    countersOk_enterMark (Config.tCycle_pos hk) rfl h1 (by simp [maxCycles]) { assemble k c r with done := false },
    rfl, frameOk_assembled rfl⟩

theorem legal_lowerDone (hp : r.phase = .idle) (h : legal k r = true) : legal k (lowerDone r) = true := by
  rw [legal_idle h hp]
  rfl

theorem legal_countOn (h : legal k r = true) (hr : running k r = true) : legal k (countOn k r) = true := by
  obtain ⟨hd, hc, he⟩ := legal_iff.1 h
  exact legal_iff.2 ⟨by simpa using hd, countersOk_countOn hc hr, (encoderOk_congr (by simp) (by simp) (by simp)).2 he⟩

theorem legal_endSegment (hk : k.valid = true) (h : legal k r = true) (hb : r.phase ≠ .idle) :
    legal k (endSegment k r) = true := by
  obtain ⟨-, -, he⟩ := legal_iff.1 h
  exact legal_iff.2 ⟨endSegment_done (legal_done h hb), countersOk_endSegment hk hb, encoderOk_endSegment he hb⟩

theorem legal_reset (k : Config) : legal k Registers.reset = true := rfl

/-- R25 is inductive: every tick of legal registers gives legal registers. -/
theorem legal_tick (hk : k.valid = true) (io : Ports) (h : legal k r = true) : legal k (tick k io r) = true := by
  cases hr : io.rst
  · rcases tick_cases k hr r with ⟨-, -, e⟩ | ⟨hp, -, e⟩ | ⟨-, hq, e⟩ | ⟨hb, -, e⟩ <;> rw [e]
    · exact legal_accept hk _ _
    · exact legal_lowerDone hp h
    · exact legal_countOn h hq
    · exact legal_endSegment hk h hb
  · simpa [tick, hr] using legal_reset k

end oneTick

/-- Settles O60: reset leads to the reset registers, and any other tick of legal registers is the step function's. -/
theorem everyValidRecordRuns : Obligations.EveryValidRecordRuns := by
  refine fun k hk => ⟨legal_reset k, fun io s hb hl => ?_⟩
  rcases blockTick_cases k io s with ⟨hv, -⟩ | ⟨-, -, e⟩ | ⟨-, -, -, e⟩ | ⟨-, -, hn, -⟩
  · simp [hk] at hv
  · exact ⟨_, e, rfl, legal_reset k⟩
  · exact ⟨_, e, hb, legal_tick hk io hl⟩
  · simp [hl] at hn

/-! ### The check as the spec writes it, and what it refuses -/

/-- R25 (b) under the source's values, whose counts `CREM` and `CPH` hold without their extensions. -/
theorem markOk_cfg_iff {n : Nat} (hn : n ≤ 4095) {r : Registers} : markOk cfg n r = true ↔
    (1 ≤ r.crem.toNat ∧ r.crem.toNat ≤ n ∧ r.cph.toNat ≤ 25 ∧ r.srem = 0) ∧ r.cremExt = 0 ∧ r.cphExt = 0 := by
  have counters : (1 ≤ cyclesLeft r ∧ cyclesLeft r ≤ n ∧ tickIndex r < 26) ↔
      (1 ≤ r.crem.toNat ∧ r.crem.toNat ≤ n ∧ r.cph.toNat ≤ 25) ∧ r.cremExt = 0 ∧ r.cphExt = 0 := by
    unfold cyclesLeft tickIndex
    omega
  rw [markOk_iff, cfg_tCycle]
  tauto

/-- Settles O38: phase by phase, the two parts of the check are the spec's clauses about that phase. -/
theorem legalRegistersAreThoseOfTheSpec : Obligations.LegalRegistersAreThoseOfTheSpec := by
  intro r
  rw [legal_iff]
  cases hp : r.phase <;>
    simp only [countersOk, encoderOk, hp, markOk_cfg_iff, spaceOk_iff, noBurst_iff, frameOk_iff, maxCycles_cfg,
      maxSpace_cfg, Phase.isMark, Phase.isSpace, Nat.reduceLeDiff, BitVec.ushiftRight_zero, reduceCtorEq,
      or_false, or_true, or_self, forall_const, true_and, false_implies, Bool.false_eq_true] <;>
    tauto

/-- Settles O33. -/
theorem resetMeetsTheInvariant : Obligations.ResetMeetsTheInvariant := ⟨legal_reset cfg, rfl⟩

/-- Settles O36: the check of the wired block and that of the bench stand before anything else a tick without reset
does. -/
theorem unreachableStatesAreRefused : Obligations.UnreachableStatesAreRefused := by
  intro s hr hi
  cases hb : s.bench with
  | none =>
    have hl : legal cfg s.regs = false := by simpa [invariant, hb] using hi
    simp [step_wired hb, blockTick, hr, hl]
  | some ws =>
    have hl : benchLegal cfg s.regs = false := by simpa [invariant, hb] using hi
    simp [step_bench hb hr, benchStep, hl]

/-- Settles O37: the four answers of a tick, of which two are refusals; a record with `T_HIGH` = 0 or a duration out of
range is not valid. -/
theorem badParametersAreRefused : Obligations.BadParametersAreRefused := by
  refine ⟨fun k io s h => ?_, fun k io s why h => ?_, fun k io s f h => ?_, cfg_valid⟩
  · have hk : k.valid = false := by
      rw [← Bool.not_eq_true, Config.valid_iff]
      simp only [Config.durations, List.forall_mem_cons]
      omega
    simp [blockTick, hk]
  · rcases blockTick_cases k io s with ⟨hk, e⟩ | ⟨-, -, e⟩ | ⟨-, -, -, e⟩ | ⟨-, hr, hl, e⟩ <;> cases e.symm.trans h
    · exact .inl ⟨rfl, fun ok => by simp [Config.valid_iff.2 ok] at hk⟩
    · exact .inr ⟨rfl, hr, hl⟩
  · cases f

end Sys2Proof.Machine
end

section
/-! Steps on the bench (30_encoding.md R51, log 5): what a word does to the state, that every step of the machine keeps the
invariant and never stops, and which operation a step runs. -/

namespace Sys2Proof.Machine

/-! ### What an operation of the bench does -/

/-- The registers r with a segment of a legal duration just started. -/
def SegmentStarted (k : Config) (r r' : Registers) : Prop :=
  (∃ (p : Phase) (d : Nat), p.isMark = true ∧ 1 ≤ d ∧ d ≤ 65535 ∧ r' = enterMark k p d r) ∨
  (∃ (p : Phase) (d : Nat), p.isSpace = true ∧ 1 ≤ d ∧ d ≤ 65535 ∧ r' = enterSpace p d r)

/-- Every word of the list is an operation. -/
def Readable (k : Config) (ws : List BenchWord) : Prop := ∀ w ∈ ws, ∃ i, decodeBench k w = .ok i

theorem Readable.tail {k : Config} {w : BenchWord} {ws : List BenchWord} (h : Readable k (w :: ws)) : Readable k ws :=
  fun v hv => h v (.tail _ hv)

theorem benchReadable_iff {s : State} : benchReadable s = true ↔ Readable cfg s.pending := by
  simp only [benchReadable, List.all_eq_true, Readable]
  refine forall₂_congr fun w _ => ?_
  cases decodeBench cfg w <;> simp

section operations
variable {k : Config} {d : Nat} (s : State)

theorem beginBurst_pos (hd : 1 ≤ d) :
    beginBurst k d s = (s.onRegs (enterMark k (markAfter s.regs) d)).onBench := if_neg (by omega)

theorem beginSpace_pos (hd : 1 ≤ d) :
    beginSpace d s = (s.onRegs (enterSpace (spaceAfter s.regs) d)).onBench := if_neg (by omega)

theorem segmentStarted_beginBurst (h1 : 1 ≤ d) (h2 : d ≤ 65535) :
    SegmentStarted k s.regs (beginBurst k d s).regs :=
  .inl ⟨markAfter s.regs, d, markAfter_isMark _, h1, h2, by rw [beginBurst_pos s h1]; rfl⟩

theorem segmentStarted_beginSpace (h1 : 1 ≤ d) (h2 : d ≤ 65535) : SegmentStarted k s.regs (beginSpace d s).regs :=
  .inr ⟨spaceAfter s.regs, d, spaceAfter_isSpace _, h1, h2, by rw [beginSpace_pos s h1]; rfl⟩

/-- A symbol with a space puts its SEG17 word, which is always readable, next on the bench. -/
theorem beginSymbol_started (h1 : 1 ≤ d) (h2 : d ≤ 65535) (u : Nat) :
    SegmentStarted k s.regs (beginSymbol k d u s).regs ∧
      ∃ ws, Readable k ws ∧ (beginSymbol k d u s).bench = some (ws ++ s.pending) := by
  refine ⟨segmentStarted_beginBurst (s.push _) h1 h2, [.seg17 (Seg.space (BitVec.ofNat 16 u)).word], ?_, ?_⟩
  · simp [Readable, decodeBench]
  · rw [beginSymbol, beginBurst_pos _ h1]
    rfl

/-- An operation on the bench either starts a segment, perhaps with a word of its own after it, or takes no time and
touches `FRAME` and `BITCNT` only. -/
theorem execIn_internal_cases (hk : k.valid = true) {i : Instr} (hi : i.command? k = none) {t : State}
    (h : execIn k i s = .next t) :
    (takesTime i = true ∧ SegmentStarted k s.regs t.regs ∧ ∃ ws, Readable k ws ∧ t.bench = some (ws ++ s.pending)) ∨
    (takesTime i = false ∧ t.bench = s.bench ∧ ∃ f b, t.regs = { s.regs with frame := f, bitcnt := b }) := by
  have none : Readable k [] := fun w hw => by cases hw
  have nat : ∀ u : Dur, u ≠ 0 → 1 ≤ u.toNat ∧ u.toNat ≤ 65535 := fun u hu => by
    have := u.isLt
    have : u.toNat ≠ 0 := fun h0 => hu (BitVec.eq_of_toNat_eq h0)
    omega
  have symbol : ∀ d ∈ k.durations, ∀ u, SegmentStarted k s.regs (beginSymbol k d u s).regs ∧
      ∃ ws, Readable k ws ∧ (beginSymbol k d u s).bench = some (ws ++ s.pending) := fun d hd u => by
    obtain ⟨h1, h2⟩ := Config.durations_bounds hk hd
    exact beginSymbol_started s h1 h2 u
  cases i with
  | send _ | menu | play | left | right | up | down => cases hi
  | burst u =>
    cases h
    by_cases hu : u = 0
    · subst hu
      exact .inr ⟨rfl, rfl, _, _, rfl⟩
    · obtain ⟨h1, h2⟩ := nat u hu
      exact .inl ⟨by simpa [takesTime] using hu, segmentStarted_beginBurst s h1 h2, [], none,
        by rw [beginBurst_pos s h1]; rfl⟩
  | space u =>
    cases h
    by_cases hu : u = 0
    · subst hu
      exact .inr ⟨rfl, rfl, _, _, rfl⟩
    · obtain ⟨h1, h2⟩ := nat u hu
      exact .inl ⟨by simpa [takesTime] using hu, segmentStarted_beginSpace s h1 h2, [], none,
        by rw [beginSpace_pos s h1]; rfl⟩
  | assemble c e =>
    cases h
    exact .inr ⟨rfl, rfl, _, _, rfl⟩
  | shift =>
    simp only [execIn, execShift] at h
    split at h <;> cases h <;> exact .inr ⟨rfl, rfl, _, _, rfl⟩
  | bit1 | bit0 =>
    cases h
    exact .inl ⟨rfl, symbol k.tBitMark (by simp [Config.durations]) _⟩
  | leader =>
    cases h
    exact .inl ⟨rfl, symbol k.tLeadMark (by simp [Config.durations]) _⟩
  | stop =>
    cases h
    obtain ⟨h1, h2⟩ := Config.durations_bounds hk (d := k.tStopMark) (by simp [Config.durations])
    exact .inl ⟨rfl, segmentStarted_beginBurst s h1 h2, [], none, by rw [beginBurst_pos s h1]; rfl⟩

end operations

/-! ### The words that are run at one tick boundary -/

section issuing
variable {k : Config}

theorem ceilDiv_mono {a b n : Nat} (hn : 1 ≤ n) (h : a ≤ b) : ceilDiv a n ≤ ceilDiv b n :=
  (ceilDiv_le_iff hn).2 (h.trans (le_ceilDiv_mul hn))

theorem SegmentStarted.benchLegal (hk : k.valid = true) {r r' : Registers} (h : SegmentStarted k r r')
    (hd : r.done = false) : benchLegal k r' = true := by
  have cyc := Config.tCycle_pos hk
  rcases h with ⟨p, d, hp, h1, h2, rfl⟩ | ⟨p, d, hp, h1, h2, rfl⟩
  · exact benchLegal_iff.2 ⟨by simp [hd], countersOk_enterMark cyc hp h1 (ceilDiv_mono cyc h2) r⟩
  · exact benchLegal_iff.2 ⟨by simp [hd], countersOk_enterSpace hp h1 h2 h2 r⟩

/-- What `issue` answers at its first word, when that is an operation. -/
theorem issue_cons_next {w : BenchWord} {ws : List BenchWord} {i : Instr} {s t : State}
    (hw : decodeBench k w = .ok i) (ht : execIn k i { s with bench := some ws } = .next t) :
    issue k (w :: ws) s = if takesTime i then .next t else issue k ws t := by
  rw [issue_cons ws s hw, ht]

/-- However many words are run at a tick boundary, the counters are then in range, and no word of another kind has come. -/
theorem issue_next (hk : k.valid = true) (ws : List BenchWord) (s t : State) (hd : s.regs.done = false)
    (h : issue k ws s = .next t) :
    benchLegal k t.regs = true ∧ ∃ us, t.bench = some us ∧ (Readable k ws → Readable k us) := by
  induction ws generalizing s with
  | nil =>
    cases h
    exact ⟨benchLegal_iff.2 ⟨by simp [hd], countersOk_leaveSegment s.regs⟩, [], rfl, id⟩
  | cons w ws ih =>
    cases hw : decodeBench k w with
    | error why => simp [issue, hw] at h
    | ok i =>
      have hi := decodeBench_command hw
      obtain ⟨u, hu⟩ := execIn_internal_next hi { s with bench := some ws }
      rw [issue_cons_next hw hu] at h
      rcases execIn_internal_cases _ hk hi hu with ⟨ht, started, vs, hv, hb⟩ | ⟨ht, -, f, b, hr⟩
      · simp only [ht, if_true, Host.Outcome.next.injEq] at h
        subst h
        exact ⟨started.benchLegal hk hd, _, hb, fun hws x hx =>
          (List.mem_append.1 hx).elim (hv x) fun hx => hws.tail x hx⟩
      · simp only [ht, Bool.false_eq_true, if_false] at h
        obtain ⟨hl, us, hb, hus⟩ := ih u (by rw [hr]; exact hd) h
        exact ⟨hl, us, hb, fun hws => hus hws.tail⟩

/-- Readable words are never refused. -/
theorem issue_progress {ws : List BenchWord} (hws : Readable k ws) (s : State) : ∃ t, issue k ws s = .next t := by
  induction ws generalizing s with
  | nil => exact ⟨_, rfl⟩
  | cons w ws ih =>
    obtain ⟨i, hw⟩ := hws w (.head _)
    obtain ⟨u, hu⟩ := execIn_internal_next (decodeBench_command hw) { s with bench := some ws }
    rw [issue_cons_next hw hu]
    split
    · exact ⟨u, rfl⟩
    · exact ih hws.tail u

end issuing

/-! ### Steps -/

section steps
variable {s : State} {ws : List BenchWord}

/-- On the bench the segment in progress counts on. -/
theorem step_bench_running (hb : s.bench = some ws) (hr : s.ports.rst = false) (hl : benchLegal cfg s.regs = true)
    (hq : running cfg s.regs = true) : step s = .next { s with regs := countOn cfg s.regs, caller := s.rest } := by
  simp [step_bench hb hr, benchStep, hl, hq, State.onRegs]

/-- On the bench the words are run where no segment goes on. -/
theorem step_bench_issue (hb : s.bench = some ws) (hr : s.ports.rst = false) (hl : benchLegal cfg s.regs = true)
    (hq : running cfg s.regs = false) :
    step s = issue cfg ws { s with regs := lowerIfIdle s.regs, caller := s.rest } := by
  simp [step_bench hb hr, benchStep, hl, hq, State.onRegs]

theorem lowerIfIdle_done {k : Config} {r : Registers} (hl : benchLegal k r = true) : (lowerIfIdle r).done = false := by
  obtain ⟨hd, -⟩ := benchLegal_iff.1 hl
  unfold lowerIfIdle
  split
  · rfl
  · simpa using mt hd ‹_›

theorem benchLegal_countOn {k : Config} {r : Registers} (hl : benchLegal k r = true) (hr : running k r = true) :
    benchLegal k (countOn k r) = true := by
  obtain ⟨hd, hc⟩ := benchLegal_iff.1 hl
  exact benchLegal_iff.2 ⟨by simpa using hd, countersOk_countOn hc hr⟩

/-- A tick with reset, of the block and of the bench (R135). -/
theorem step_reset (hr : s.ports.rst = true) :
    step s = .next { s with regs := Registers.reset, caller := s.rest, bench := none } := by
  have hr' : (s.portsIn cfg).rst = true := hr
  simp only [step, stepTick, stepWith, hr', if_true]
  exact blockTick_reset cfg_valid hr'

/-- What a step answers from a state that meets the invariant: on the bench the words are run, if the segment in progress
does not count on. -/
theorem step_cases (hi : invariant s = true) :
    (s.ports.rst = true ∧ step s = .next { s with regs := Registers.reset, caller := s.rest, bench := none }) ∨
    (s.ports.rst = false ∧ s.bench = none ∧ legal cfg s.regs = true ∧
      step s = .next { s with regs := tick cfg s.ports s.regs, caller := s.rest }) ∨
    (s.ports.rst = false ∧ ∃ ws, s.bench = some ws ∧ benchLegal cfg s.regs = true ∧
      ((running cfg s.regs = true ∧ step s = .next { s with regs := countOn cfg s.regs, caller := s.rest }) ∨
        (running cfg s.regs = false ∧
          step s = issue cfg ws { s with regs := lowerIfIdle s.regs, caller := s.rest }))) := by
  cases hr : s.ports.rst
  · refine .inr ?_
    obtain hb | ⟨ws, hb⟩ := Option.eq_none_or_eq_some s.bench
    · have hl : legal cfg s.regs = true := by simpa [invariant, hb] using hi
      exact .inl ⟨rfl, hb, hl, step_wired_legal hb hr hl⟩
    · have hl : benchLegal cfg s.regs = true := by simpa [invariant, hb] using hi
      refine .inr ⟨rfl, ws, hb, hl, ?_⟩
      cases hq : running cfg s.regs
      · exact .inr ⟨rfl, step_bench_issue hb hr hl hq⟩
      · exact .inl ⟨rfl, step_bench_running hb hr hl hq⟩
  · exact .inl ⟨rfl, step_reset hr⟩

end steps

/-- Settles O34: a tick of legal registers is legal; on the bench a segment counts on in range, or one starts in range, or
none is in progress. -/
theorem stepKeepsTheInvariant : Obligations.StepKeepsTheInvariant := by
  intro s s' hi h
  rcases step_cases hi with ⟨-, e⟩ | ⟨-, hb, hl, e⟩ | ⟨-, ws, hb, hl, ⟨hq, e⟩ | ⟨-, e⟩⟩
  · cases e.symm.trans h
    exact legal_reset cfg
  · cases e.symm.trans h
    simpa [invariant, hb] using legal_tick cfg_valid s.ports hl
  · cases e.symm.trans h
    simpa [invariant, hb] using benchLegal_countOn hl hq
  · obtain ⟨hl', us, hb', -⟩ := issue_next cfg_valid ws _ s' (lowerIfIdle_done hl) (e.symm.trans h)
    simpa [invariant, hb'] using hl'

/-- Settles O35: only the bench could refuse, and it refuses no readable word; the words a symbol adds are readable. -/
theorem legalStatesNeverStop : Obligations.LegalStatesNeverStop := by
  intro s hi hread
  rcases step_cases hi with ⟨-, e⟩ | ⟨-, hb, -, e⟩ | ⟨-, ws, hb, hl, ⟨-, e⟩ | ⟨-, e⟩⟩
  · exact ⟨_, e, rfl⟩
  · exact ⟨_, e, by simp [benchReadable, State.pending, hb]⟩
  · exact ⟨_, e, hread⟩
  · have hws : Readable cfg ws := by simpa [State.pending, hb] using benchReadable_iff.1 hread
    obtain ⟨t, ht⟩ := issue_progress hws { s with regs := lowerIfIdle s.regs, caller := s.rest }
    obtain ⟨-, us, hus, keeps⟩ := issue_next cfg_valid ws _ t (lowerIfIdle_done hl) ht
    exact ⟨t, e.trans ht, benchReadable_iff.2 (by simpa [State.pending, hus] using keeps hws)⟩

/-! ### Which operation a step runs -/

/-- Settles O31: the first word of `issue`, whose operation always completes. -/
theorem benchWordRunsItsOperation : Obligations.BenchWordRunsItsOperation := by
  intro s w ws i hb hr hl hq hw
  obtain ⟨t, ht⟩ := execIn_internal_next (decodeBench_command hw)
    { s with regs := lowerIfIdle s.regs, caller := s.rest, bench := some ws }
  refine ⟨t, (exec_eq_execIn _ _).trans ht, ?_⟩
  rw [step_bench_issue hb hr hl hq]
  exact issue_cons_next hw ht

/-- Settles O30: the wired block decodes the byte on `cmd`. -/
theorem portCommandRunsItsOperation : Obligations.PortCommandRunsItsOperation := by
  intro s i hb hr hs hi
  cases hi
  have hr' : (s.portsIn cfg).rst = false := hr
  have hs' : (s.portsIn cfg).start = true := hs
  simp [step, stepTick, stepWith, hb, hr', hs', exec_eq_execIn]

/-- Settles O56: the host's names are the operations and the step of the record `cfg`; under any record the wired block
decodes the byte on `cmd` by that record. -/
theorem buildIsAnArgument : Obligations.BuildIsAnArgument := by
  refine ⟨exec_eq_execIn, fun s => rfl, fun k s i hb hr hs hi => ?_⟩
  cases hi
  simp [stepTick, stepWith, hb, hr, hs]

/-! ### A placed word -/

section placing

/-- A number the host's decoder reads is laid out as a word that decodes to that operation. -/
theorem layOut_of_decodeTableWord {n w : Nat} {i : Instr} (h : decodeTableWord n w = some i) :
    ∃ cw, layOut n w = .ok cw ∧ decode cfg cw = .ok i := by
  have h := decodeTableWord_eq_some.1 h
  unfold decodeNumber at h
  cases hl : layOut n w with
  | ok cw => exact ⟨cw, rfl, by simpa [hl] using h⟩
  | error why => simp [hl] at h

theorem layOut_eight {w : Nat} {cw : CodeWord} (h : layOut 8 w = .ok cw) : ∃ c, cw = .cmd8 c := by
  rw [layOut, if_pos rfl] at h
  split_ifs at h
  cases h
  exact ⟨_, rfl⟩

theorem layOut_other {n w : Nat} {cw : CodeWord} (hn : n ≠ 8) (h : layOut n w = .ok cw) : ∃ b, cw = .bench b := by
  rw [layOut, if_neg hn] at h
  split_ifs at h <;> cases h <;> exact ⟨_, rfl⟩

/-- In `IDLE` there is no segment to leave. -/
theorem leaveSegment_idle {r : Registers} (hp : r.phase = .idle) (hb : noBurst r = true) (hs : r.srem = 0) :
    leaveSegment r = r := by
  obtain ⟨h1, h2, h3, h4⟩ := noBurst_iff.1 hb
  obtain ⟨p, f, b, cr, ch, sr, d, x, y⟩ := r
  simp_all [leaveSegment, setCycles, setIndex]

/-- With no word left in `IDLE`, `issue` changes nothing. -/
theorem issue_nil_idle {s : State} {k : Config} (hb : s.bench = some []) (hp : s.regs.phase = .idle)
    (hn : noBurst s.regs = true) (hs : s.regs.srem = 0) : issue k [] s = .next s := by
  obtain ⟨r, c, b, d⟩ := s
  subst hb
  simp [issue, State.onRegs, leaveSegment_idle hp hn hs]

end placing

/-- Settles O32: a command word stands on the ports; another word is the only one on the bench, and where it takes no time
the end of the words changes nothing in `IDLE`. -/
theorem placedWordIsRunByTheNextStep : Obligations.PlacedWordIsRunByTheNextStep := by
  constructor
  · intro s w i h
    obtain ⟨cw, hl, hd⟩ := layOut_of_decodeTableWord h
    obtain ⟨c, rfl⟩ := layOut_eight hl
    have placed : s.withFetchWord 8 w = { s with caller := .force c :: s.caller, bench := none } := by
      simp [State.withFetchWord, placeNumber, hl, placeWord]
    rw [placed, portCommandRunsItsOperation { s with caller := .force c :: s.caller, bench := none } i rfl rfl rfl hd]
    rfl
  · intro s n w i hn h hp hlegal
    obtain ⟨cw, hl, hd⟩ := layOut_of_decodeTableWord h
    obtain ⟨b, rfl⟩ := layOut_other hn hl
    have placed : s.withFetchWord n w =
        { s with caller := .pins Ports.quiet :: s.caller, bench := some [b] } := by
      simp [State.withFetchWord, placeNumber, hl, placeWord, running_idle hp]
    obtain ⟨t, ht, hstep⟩ := benchWordRunsItsOperation (s.withFetchWord n w) b [] i (by rw [placed])
      (by rw [placed]; rfl) (by rw [placed]; exact hlegal) (by rw [placed]; exact running_idle hp) hd
    rw [placed] at ht hstep ⊢
    have run : exec i { s with regs := { s.regs with done := false }, bench := some [] } = .next t := by
      rw [← ht, if_pos hp]
      rfl
    rw [hstep, run]
    rcases execIn_internal_cases _ cfg_valid (decodeBench_command hd) ((exec_eq_execIn _ _).symm.trans run) with
      ⟨time, -⟩ | ⟨time, hb, f, e, hr⟩
    · rw [time, if_pos rfl]
    · obtain ⟨-, hc⟩ := benchLegal_iff.1 hlegal
      obtain ⟨burst, space⟩ := (countersOk_idle hp).1 hc
      rw [time, if_neg Bool.false_ne_true]
      exact issue_nil_idle hb (by rw [hr]; exact hp) (by rw [hr]; exact burst) (by rw [hr]; exact space)

end Sys2Proof.Machine
end

section
/-! The timing sequencer over all ticks (42_timing_sequencer.md sections 2, 4 and 6): where `PHASE`, `FRAME` and `DONE` may
change, commands while a transmission runs, acceptance under every record; and reset, the outputs and the caller's lines. -/

namespace Sys2Proof.Machine

/-! ### Reset, phases and outputs -/

/-- Settles O1. -/
theorem resetStateIsTheSpecsReset : Obligations.ResetStateIsTheSpecsReset := ⟨rfl, rfl, rfl, rfl, rfl⟩

/-- Settles O2: `step_reset` names the reset registers. -/
theorem resetWinsInEveryState : Obligations.ResetWinsInEveryState := fun _ hr => step_reset hr

/-- Settles O4. -/
theorem phaseCodes : Obligations.PhaseCodes := ⟨rfl, fun p => by cases p <;> decide⟩

theorem Phase.isMark_iff {p : Phase} : p.isMark = true ↔ p = .leadMark ∨ p = .bitMark ∨ p = .stopMark := by
  cases p <;> simp [Phase.isMark]

theorem busy_iff {r : Registers} : busy r = true ↔ r.phase ≠ .idle := by
  simp [busy]

/-- Settles O3: the line is high in mark phases only, and these are not `IDLE`. -/
theorem outputsFollowTheRegisters : Obligations.OutputsFollowTheRegisters := by
  intro r
  refine ⟨?_, busy_iff, rfl, fun h => busy_iff.2 (Phase.isMark_ne_idle (irOut_iff.1 h).1)⟩
  rw [irOut_iff, Phase.isMark_iff]
  rfl

/-- Settles O55. -/
theorem scriptLinesDriveThePorts : Obligations.ScriptLinesDriveThePorts := fun k ls c x n p =>
  ⟨fun _ => rfl, rfl, rfl, fun b => by cases b <;> rfl, rfl, rfl, fun _ => ⟨rfl, rfl⟩, fun _ => rfl, fun _ => rfl, rfl, rfl⟩

/-! ### What the end of a segment changes -/

section endOfSegment
variable {k : Config} {r : Registers}

/-- R89: the end of a segment is an edge to another phase. -/
theorem endSegment_phase_ne (hb : r.phase ≠ .idle) : (endSegment k r).phase ≠ r.phase := by
  cases hp : r.phase with
  | idle => exact absurd hp hb
  | leadMark | leadSpace | bitMark | stopMark =>
    simp [endSegment, hp, endLeadMark, endLeadSpace, endBitMark, endStopMark]
  | bitSpace =>
    simp only [endSegment, hp, endBitSpace]
    split <;> simp

/-- R11: of the segment ends only that of a data bit's space writes `FRAME`. -/
theorem endSegment_frame_changed (h : (endSegment k r).frame ≠ r.frame) :
    r.phase = .bitSpace ∧ (endSegment k r).frame = r.frame >>> 1 := by
  cases hp : r.phase with
  | bitSpace =>
    refine ⟨rfl, ?_⟩
    simp only [endSegment, hp, endBitSpace]
    split <;> rfl
  | idle | leadMark | leadSpace | bitMark | stopMark =>
    simp [endSegment, hp, endLeadMark, endLeadSpace, endBitMark, endStopMark] at h

/-- R96: of the segment ends only that of the stop mark raises `DONE`. -/
theorem endSegment_done_raised (hd : r.done = false) (h : (endSegment k r).done = true) : r.phase = .stopMark := by
  cases hp : r.phase with
  | stopMark => rfl
  | idle | leadMark | leadSpace | bitMark =>
    simp [endSegment, hp, endLeadMark, endLeadSpace, endBitMark, hd] at h
  | bitSpace =>
    simp only [endSegment, hp, endBitSpace] at h
    split at h <;> simp [hd] at h

end endOfSegment

/-! ### Single ticks under the source's values -/

section ticks
variable {io : Ports} {r : Registers}

/-- In a mark phase the last tick is the one with `CPH` = 25 and `CREM` = 1. -/
theorem not_running_mark (hl : legal cfg r = true) (hp : r.phase.isMark = true) :
    running cfg r = false ↔ r.cph = 25 ∧ r.crem = 1 := by
  rw [running_mark hp, Bool.not_eq_false', lastBurstTick_iff (legal_mark hl hp) (by simp)]

/-- In a space phase the last tick is the one with `SREM` = 1. -/
theorem not_running_space (hl : legal cfg r = true) (hp : r.phase.isSpace = true) :
    running cfg r = false ↔ r.srem = 1 := by
  rw [running_space hp, Bool.not_eq_false', lastSpaceTick_iff (legal_space hl hp)]

/-- R89's "otherwise": a tick of a segment is an edge of the table exactly at the segment's end. -/
theorem tick_busy_phase (hr : io.rst = false) (hb : r.phase ≠ .idle) :
    (tick cfg io r).phase = if running cfg r = false then (endSegment cfg r).phase else r.phase := by
  cases hq : running cfg r
  · rw [if_pos rfl, tick_last hr hb hq]
  · rw [if_neg (by decide), tick_running hr hq, countOn_phase]

end ticks

/-- A step of the wired block in legal registers is a reset or the step function's tick. -/
theorem step_wired_next {s t : State} (hb : s.bench = none) (hl : legal cfg s.regs = true) (h : step s = .next t) :
    (s.ports.rst = true ∧ t.regs = Registers.reset) ∨
    (s.ports.rst = false ∧ t.regs = tick cfg s.ports s.regs) := by
  cases hr : s.ports.rst
  · cases (step_wired_legal hb hr hl).symm.trans h
    exact .inr ⟨rfl, rfl⟩
  · cases (step_reset hr).symm.trans h
    exact .inl ⟨rfl, rfl⟩

/-- Settles O7: `SREM` above 1 has room to count down, and `SREM` = 1 is the end of the segment. -/
theorem spaceTickCounts : Obligations.SpaceTickCounts := by
  intro s hb hl hr hp
  have hstep := step_wired_legal hb hr hl
  refine ⟨fun more => ⟨?_, toNat_sub_one more.le⟩, fun last => ⟨_, hstep, ?_⟩⟩
  · have hq : running cfg s.regs = true := by simpa [running_space hp, lastSpaceTick] using more
    rw [hstep, tick_running hr hq, countOn_space hp]
    rfl
  · have hne := Phase.isSpace_ne_idle hp
    rw [tick_last hr hne ((not_running_space hl hp).2 last)]
    exact endSegment_phase_ne hne

/-- Settles O13: in each phase the table's edge is that of the segment's end, whose condition on the counters is that of
the last tick. -/
theorem phaseMovesOnlyAlongTheEdges : Obligations.PhaseMovesOnlyAlongTheEdges := by
  intro s t hb hl h
  rcases step_wired_next hb hl h with ⟨hr, e⟩ | ⟨hr, e⟩ <;> rw [e, hr]
  · exact ⟨fun _ => rfl, fun h => by cases h⟩
  refine ⟨fun h => (Bool.false_ne_true h).elim, fun _ => ?_⟩
  have mark := not_running_mark hl
  have space := not_running_space hl
  have edge := tick_busy_phase (io := s.ports) (r := s.regs) hr
  cases hp : s.regs.phase with
  | idle => cases hs : s.ports.start <;> simp [tick, hr, hp, hs, accept]
  | leadMark | bitMark | stopMark =>
    simp only [hp, Phase.isMark, forall_const] at mark
    simp [edge, hp, mark, endSegment, endLeadMark, endBitMark, endStopMark]
  | leadSpace =>
    simp only [hp, Phase.isSpace, forall_const] at space
    simp [edge, hp, space, endSegment, endLeadSpace]
  | bitSpace =>
    simp only [hp, Phase.isSpace, forall_const] at space
    simp [edge, hp, space, endSegment, endBitSpace, apply_ite Registers.phase]

/-- Settles O14: acceptance and the idle step lower `DONE`, it is 0 while a transmission runs, and of the segment ends only
that of the stop mark raises it. -/
theorem doneIsAPulseOfOneTick : Obligations.DoneIsAPulseOfOneTick := by
  intro s t hb hl h
  constructor
  · intro hd
    rcases step_wired_next hb hl h with ⟨-, e⟩ | ⟨hr, e⟩ <;> rw [e] at hd
    · cases hd
    rcases tick_cases cfg hr s.regs with ⟨-, -, e⟩ | ⟨-, -, e⟩ | ⟨hne, -, e⟩ | ⟨hne, hq, e⟩ <;> rw [e] at hd
    · cases hd
    · cases hd
    · rw [countOn_done, legal_done hl hne] at hd
      cases hd
    · have hp := endSegment_done_raised (legal_done hl hne) hd
      exact ⟨hr, hp, (not_running_mark hl (by rw [hp]; rfl)).1 hq⟩
  · rintro ⟨hr, hp, hc, hm⟩
    rw [step_wired_legal hb hr hl, tick_lastStopMark hr hl hp hc hm] at h
    cases h
    rfl

/-- Settles O15: the idle step and a tick that counts on leave `FRAME`; of the segment ends only that of a data bit's space
writes it. -/
theorem frameIsWrittenOnlyByAssembleAndShift : Obligations.FrameIsWrittenOnlyByAssembleAndShift := by
  intro s t hb hl h hf
  rcases step_wired_next hb hl h with ⟨hr, e⟩ | ⟨hr, e⟩ <;> rw [e] at hf ⊢
  · exact .inl ⟨hr, rfl⟩
  refine .inr ?_
  rcases tick_cases cfg hr s.regs with ⟨hp, hs, e⟩ | ⟨-, -, e⟩ | ⟨-, -, e⟩ | ⟨-, hq, e⟩ <;> rw [e] at hf ⊢
  · exact .inl ⟨hr, hp, hs, rfl⟩
  · exact absurd rfl hf
  · exact absurd (countOn_frame cfg s.regs) hf
  · obtain ⟨hp, shifted⟩ := endSegment_frame_changed hf
    exact .inr ⟨hr, hp, (not_running_space hl (by rw [hp]; rfl)).1 hq, shifted⟩

/-- Settles O18: each of the seven operations is a tick of the block, and a tick outside `IDLE` reads no port but reset. -/
theorem commandsAreDroppedWhileBusy : Obligations.CommandsAreDroppedWhileBusy := by
  intro i s hi hl hp
  obtain ⟨c, hc⟩ := Option.isSome_iff_exists.1 hi
  rw [exec_eq_execIn, execIn_command hc, blockTick_legal rfl hl, State.onRegs,
    tick_busy_ports (io := Ports.present c) (io' := Ports.quiet) rfl rfl hp]

/-! ### Acceptance of the six names -/

/-- R110 under every valid record: an operation a caller can issue is accepted in `IDLE` as its command. -/
theorem execIn_command_idle {k : Config} {s : State} (hk : k.valid = true) (hl : legal k s.regs = true)
    (hp : s.regs.phase = .idle) {i : Instr} {c : Cmd} (h : i.command? k = some c) :
    execIn k i s = .next { s with regs := accept k c s.regs } := by
  rw [execIn_command h, blockTick_present_idle hk hl hp]

/-- Settles O58. -/
theorem buttonsFollowTheRecord : Obligations.ButtonsFollowTheRecord := by
  intro k s hk hl hp
  have accepted := fun i c => execIn_command_idle hk hl hp (i := i) (c := c)
  exact ⟨accepted .menu _ rfl, accepted .play _ rfl, accepted .left _ rfl, accepted .right _ rfl, accepted .up _ rfl,
    accepted .down _ rfl, fun c => accept_eq k c s.regs⟩

/-- Settles O17: the record `cfg` gives `MENU` and `UP` the document's codes, and its leader burst 347 cycles. -/
theorem buttonsAreAcceptedAsTheirCodes : Obligations.ButtonsAreAcceptedAsTheirCodes := by
  intro s hl hp
  have accepted : ∀ i c, i.command? cfg = some c → exec i s = .next { s with regs := accept cfg c s.regs } :=
    fun i c h => (exec_eq_execIn i s).trans (execIn_command_idle cfg_valid hl hp h)
  refine ⟨accepted .menu _ rfl, accepted .play _ rfl, accepted .left _ rfl, accepted .right _ rfl, accepted .up _ rfl,
    accepted .down _ rfl, fun c => ?_⟩
  rw [accept_eq]
  simp

/-- Settles O52: acceptance writes every register, and so does reset. -/
theorem acceptanceForgetsThePast : Obligations.AcceptanceForgetsThePast := by
  intro k io r r' hs hp hp'
  cases hr : io.rst
  · rw [tick_idle_start hr hp hs, tick_idle_start hr hp' hs, accept_eq, accept_eq]
  · simp [tick, hr]

end Sys2Proof.Machine
end

section
/-! The operations of the sub-blocks (40_carrier_modulator.md, 41_frame_encoder.md, 30_encoding.md R46): bursts, spaces,
symbols, ASSEMBLE and SHIFT. -/

namespace Sys2Proof.Machine

theorem Dur.toNat_pos {t : Dur} (h : t ≠ 0) : 1 ≤ t.toNat :=
  Nat.pos_of_ne_zero fun h0 => h (BitVec.eq_of_toNat_eq h0)

/-- A duration R3 allows is stored as it stands. -/
theorem Dur.ofNat_toNat {d : Nat} (hd : d ≤ 65535) : (BitVec.ofNat 16 d : Dur).toNat = d := by
  rw [BitVec.toNat_ofNat, Nat.mod_eq_of_lt (by omega)]

/-! ### Bursts and spaces -/

section segments
variable {k : Config} {d : Nat} {p : Phase}

/-- R65's start of a burst, register by register. -/
theorem enterMark_registers (k : Config) (p : Phase) (d : Nat) (r : Registers) : enterMark k p d r = { r with
    phase := p
    crem := BitVec.ofNat 12 (cycles k d)
    cremExt := cycles k d / 2 ^ 12
    cph := 0
    cphExt := 0
    srem := 0 } := rfl

/-- Where `CREM` holds the cycle count, its extension is 0. -/
theorem enterMark_fits (hd : cycles k d ≤ 4095) (r : Registers) : enterMark k p d r = { r with
    phase := p
    crem := BitVec.ofNat 12 (cycles k d)
    cph := 0
    srem := 0
    cremExt := 0
    cphExt := 0 } := by
  rw [enterMark_registers, Nat.div_eq_of_lt (by omega)]

/-- A burst started on the bench, whose count fits `CREM`. -/
theorem beginBurst_fits (h1 : 1 ≤ d) (hd : cycles k d ≤ 4095) (s : State) : beginBurst k d s = { s with
    regs := { s.regs with
      phase := markAfter s.regs
      crem := BitVec.ofNat 12 (cycles k d)
      cph := 0
      srem := 0
      cremExt := 0
      cphExt := 0 }
    bench := some (s.bench.getD []) } := by
  rw [beginBurst_pos s h1, State.onRegs, enterMark_fits hd]
  rfl

end segments

/-- Settles O20: ceil_div(t, 26) is at most 2521, which twelve bits hold. -/
theorem burstStartsItsCycles : Obligations.BurstStartsItsCycles := by
  intro t s ht
  have fits : cycles cfg t.toNat ≤ 4095 := (cycles_cfg_le t).trans (by decide)
  refine ⟨markAfter s.regs, markAfter_isMark _, ?_, ?_⟩
  · exact congrArg Host.Outcome.next (beginBurst_fits (Dur.toNat_pos ht) fits s)
  · exact Nat.mod_eq_of_lt (Nat.lt_succ_of_le fits)

/-- Settles O21. -/
theorem spaceStartsItsTicks : Obligations.SpaceStartsItsTicks := by
  intro t s ht
  refine ⟨spaceAfter s.regs, spaceAfter_isSpace _, congrArg Host.Outcome.next ?_⟩
  rw [beginSpace_pos s (Dur.toNat_pos ht), State.onRegs, enterSpace, BitVec.ofNat_toNat, BitVec.setWidth_eq]
  rfl

/-- Settles O22: ceil_div(0, T_CYCLE) is 0 as soon as a cycle has a tick. -/
theorem emptySegmentsDoNothing : Obligations.EmptySegmentsDoNothing := by
  refine ⟨fun s => ⟨rfl, rfl⟩, fun k hk => ?_⟩
  have none : cycles k 0 = 0 := ceilDiv_zero (Config.tCycle_pos hk)
  exact ⟨none, by simp [burstWave, none], by simp [burstTicks, none], rfl⟩

/-- Settles O25: each symbol begins with its burst, of 347 or 22 cycles, and its space is the next word. -/
theorem symbolsAreTheirSegments : Obligations.SymbolsAreTheirSegments := by
  refine ⟨fun s => ⟨markAfter s.regs, markAfter_isMark _, ?_, ?_, ?_, ?_⟩, rfl, rfl, rfl, rfl, rfl, rfl, rfl, rfl⟩ <;>
    exact congrArg Host.Outcome.next (beginBurst_fits (by decide) (by decide) _)

/-- Settles O59: a count of at least one cycle is stored and read back exactly; of R66's three arms the last is an edge of
the phase machine. -/
theorem burstFollowsTheRecord : Obligations.BurstFollowsTheRecord := by
  refine ⟨fun k t s hk ht => ?_, fun k io r hk hr hl hp => ?_⟩
  · have h1 := Dur.toNat_pos ht
    have cyc := Config.tCycle_pos hk
    refine ⟨markAfter s.regs, beginBurst k t.toNat s, markAfter_isMark _, rfl, ?_, ?_⟩
    · rw [beginBurst_pos s h1, State.onRegs, enterMark_registers]
      rfl
    · rw [beginBurst_pos s h1]
      simp only [State.onBench_regs, State.onRegs_regs, cyclesLeft_enterMark, tickIndex_enterMark, enterMark_cremExt]
      refine ⟨rfl, ceilDiv_pos cyc h1, trivial, fun h17 => Nat.div_eq_of_lt ?_⟩
      have bound : cycles k t.toNat ≤ 4095 := (ceilDiv_le_iff cyc).2 (by have := t.isLt; omega)
      omega
  · have hm := legal_mark hl hp
    obtain ⟨-, -, index, -⟩ := markOk_iff.1 hm
    have counts : ¬ (k.tCycle - 1 ≤ tickIndex r ∧ cyclesLeft r ≤ 1) → tick k io r = countBurst k r := fun h => by
      have hq : running k r = true := by
        rw [running_mark hp, Bool.not_eq_true', ← Bool.not_eq_true, lastBurstTick_iff_le]
        exact h
      rw [tick_running hr hq, countOn_mark hp]
    refine ⟨fun inside => ?_, fun cycleEnd more => ?_, fun cycleEnd last => ?_, index⟩
    · have e : tick k io r = setIndex (tickIndex r + 1) r := by
        rw [counts (by omega), countBurst, if_pos (by omega)]
      exact ⟨e, by rw [e, tickIndex_setIndex], by rw [e, cyclesLeft_setIndex]⟩
    · have e : tick k io r = setCycles (cyclesLeft r - 1) (setIndex 0 r) := by
        rw [counts (by omega), countBurst, if_neg (by omega)]
      exact ⟨e, by rw [e, tickIndex_setCycles, tickIndex_setIndex], by rw [e, cyclesLeft_setCycles]⟩
    · have hne := Phase.isMark_ne_idle hp
      have hq : running k r = false := by
        rw [running_mark hp, Bool.not_eq_false', lastBurstTick_iff_le]
        omega
      rw [tick_last hr hne hq]
      exact endSegment_phase_ne hne

/-! ### The frame encoder -/

/-- Settles O23. -/
theorem assembleBuildsTheFrame : Obligations.AssembleBuildsTheFrame :=
  ⟨fun _ _ _ => rfl, fun k c _ _ => ⟨_, rfl, rfl, frameOf_remoteId k c _, frameOf_command k c _, frameOf_deviceId k c _⟩⟩

/-- Settles O24. -/
theorem shiftAdvancesTheFrame : Obligations.ShiftAdvancesTheFrame := by
  intro s
  refine ⟨fun hb => ⟨?_, ?_⟩, fun hb => ⟨Config.freeBitcnt s.drawn, s.drawn + 1, ?_⟩, by simp⟩
  · rw [exec_eq_execIn, execIn, execShift, if_neg hb]
    rfl
  · exact toNat_sub_one (Nat.pos_of_ne_zero fun h0 => hb (BitVec.eq_of_toNat_eq h0))
  · rw [exec_eq_execIn, execIn, execShift, if_pos hb]
    rfl

section shifts
variable (k : Config) (c : Cmd) (r : Registers)

/-- R81: n SHIFTs move the frame n places. -/
theorem iterate_shift_frame (n : Nat) : (shift^[n] r).frame = r.frame >>> n := by
  induction n with
  | zero => simp
  | succ n ih => rw [Function.iterate_succ_apply', shift_frame, ih, ← BitVec.shiftRight_add]

/-- R81: as long as `BITCNT` lasts, each SHIFT takes one off. -/
theorem iterate_shift_bitcnt {n : Nat} (hn : n ≤ r.bitcnt.toNat) :
    (shift^[n] r).bitcnt.toNat = r.bitcnt.toNat - n := by
  induction n with
  | zero => rfl
  | succ n ih =>
    have h := ih (by omega)
    rw [Function.iterate_succ_apply', shift_bitcnt, toNat_sub_one (by omega), h]
    omega

end shifts

/-- Settles O40: the current bit is bit 0 of the frame shifted n places, and after 32 places nothing is left. -/
theorem shiftsHandOutTheFrame : Obligations.ShiftsHandOutTheFrame := by
  intro k c r n hn
  have frame := iterate_shift_frame (assemble k c r) n
  rw [assemble_frame] at frame
  refine ⟨frame, iterate_shift_bitcnt (assemble k c r) hn, fun _ => ?_, fun h32 => ?_⟩
  · rw [currentBit, frame, BitVec.getLsbD_ushiftRight, Nat.add_zero]
  · rw [frame, h32, frame_after_all_shifts]

/-! ### The bits on the wire -/

/-- R82, R83: the fields of the frame in the order of transmission. -/
theorem frameBits_assembled (D : BitVec 16) (c : Cmd) : frameBits (assembled { cfg with deviceId := D } c) =
    (List.range 16).map D.getLsbD ++ (List.range 8).map c.getLsbD ++
      [true, false, false, false, false, false, false, false] := by
  have bits : List.range 32 = List.range 16 ++ (List.range 8).map (16 + ·) ++ (List.range 8).map (24 + ·) := by decide
  have device : (List.range 16).map (assembled { cfg with deviceId := D } c).getLsbD = (List.range 16).map D.getLsbD :=
    List.map_congr_left fun i hi => assembled_getLsbD_device _ c (List.mem_range.1 hi)
  have command : (List.range 8).map (fun i => (assembled { cfg with deviceId := D } c).getLsbD (16 + i)) =
      (List.range 8).map c.getLsbD :=
    List.map_congr_left fun i hi => assembled_getLsbD_command _ c (List.mem_range.1 hi)
  have remote : (List.range 8).map (fun i => (assembled { cfg with deviceId := D } c).getLsbD (24 + i)) =
      (List.range 8).map (fun i => decide (24 + i = 24)) :=
    List.map_congr_left fun i _ => assembled_getLsbD_remote_source D c (by omega)
  rw [frameBits, bits, List.map_append, List.map_append, List.map_map, List.map_map, device]
  exact congrArg₂ (· ++ ·) (congrArg _ command) remote

/-- Settles O41. -/
theorem bitsLeaveLeastSignificantFirst : Obligations.BitsLeaveLeastSignificantFirst :=
  ⟨frameBits_assembled, by decide⟩

end Sys2Proof.Machine
end

section
/-! Waveforms, counts and times of a frame (40_carrier_modulator.md section 1, 42_timing_sequencer.md section 5), and the
reference decoder (95_test_vectors.md section 2.6). -/

namespace Sys2Proof.Machine

/-! ### Bursts -/

section bursts
variable {k : Config} (d : Nat) (w : Wave)

@[simp] theorem length_carrierCycle (k : Config) : (carrierCycle k).length = k.tCycle := by
  simp [carrierCycle, Config.tCycle]

@[simp] theorem count_carrierCycle (k : Config) : (carrierCycle k).count true = k.tHigh := by
  simp [carrierCycle, List.count_replicate]

theorem length_burstWave : (burstWave k d).length = burstTicks k d := by
  simp [burstWave, burstTicks, List.length_flatten, Nat.mul_comm]

theorem count_burstWave : (burstWave k d).count true = k.tHigh * cycles k d := by
  simp [burstWave, List.count_flatten, Nat.mul_comm]

/-- A constant level has no edge to itself. -/
theorem risingEdges_replicate (b : Bool) (n : Nat) : risingEdges b (List.replicate n b ++ w) = risingEdges b w := by
  induction n with
  | zero => rfl
  | succ n ih => simpa [List.replicate_succ, risingEdges] using ih

/-- A carrier cycle begins with its only rising edge and ends low. -/
theorem risingEdges_carrierCycle (hh : 1 ≤ k.tHigh) (hl : 1 ≤ k.tLow) :
    risingEdges false (carrierCycle k ++ w) = 1 + risingEdges false w := by
  obtain ⟨h, eh⟩ := Nat.exists_eq_add_of_le' hh
  obtain ⟨l, el⟩ := Nat.exists_eq_add_of_le' hl
  rw [carrierCycle, List.append_assoc, eh, el, List.replicate_succ, List.replicate_succ]
  simp only [List.cons_append, risingEdges]
  rw [risingEdges_replicate, risingEdges, risingEdges_replicate]
  simp

/-- R67: one rising edge a cycle. -/
theorem risingEdges_burstWave (hh : 1 ≤ k.tHigh) (hl : 1 ≤ k.tLow) :
    risingEdges false (burstWave k d ++ w) = cycles k d + risingEdges false w := by
  unfold burstWave
  induction cycles k d with
  | zero => simp
  | succ n ih =>
    rw [List.replicate_succ, List.flatten_cons, List.append_assoc, risingEdges_carrierCycle _ hh hl, ih]
    omega

/-- A burst of at least one cycle is a cycle followed by the others. -/
theorem burstWave_eq_cons (hd : 1 ≤ cycles k d) :
    burstWave k d = carrierCycle k ++ (List.replicate (cycles k d - 1) (carrierCycle k)).flatten := by
  obtain ⟨n, en⟩ := Nat.exists_eq_add_of_le' hd
  rw [burstWave, en, List.replicate_succ]
  rfl

/-- A burst of at least one cycle is the others followed by the last. -/
theorem burstWave_eq_append (hd : 1 ≤ cycles k d) :
    burstWave k d = (List.replicate (cycles k d - 1) (carrierCycle k)).flatten ++ carrierCycle k := by
  obtain ⟨n, en⟩ := Nat.exists_eq_add_of_le' hd
  simp [burstWave, en, List.replicate_succ']

end bursts

/-- Settles O46: ceil_div gives the least count, and 26 times it is d rounded up to a multiple of 26. -/
theorem burstsAreRoundedUp : Obligations.BurstsAreRoundedUp := by
  intro d
  have enough : d ≤ 26 * cycles cfg d := by
    rw [Nat.mul_comm]
    exact le_ceilDiv_mul (by decide)
  have least : ∀ n, d ≤ 26 * n → cycles cfg d ≤ n := fun n hn =>
    (ceilDiv_le_iff (by decide)).2 (by rw [cfg_tCycle]; omega)
  have close := least ((d + 25) / 26) (by omega)
  have ticks : burstTicks cfg d = 26 * cycles cfg d := rfl
  exact ⟨enough, least, length_burstWave d, by omega, by omega⟩

/-- Settles O47: each carrier cycle has ten high ticks and one edge; the first begins high, the last ends low. -/
theorem burstsHaveTheirEdges : Obligations.BurstsHaveTheirEdges := by
  intro d
  refine ⟨count_burstWave d, ?_, fun hd => ?_⟩
  · simpa [risingEdges] using risingEdges_burstWave (k := cfg) d [] (by decide) (by decide)
  · have h1 : 1 ≤ cycles cfg d := ceilDiv_pos (by decide) hd
    refine ⟨by rw [burstWave_eq_cons d h1]; rfl, ?_⟩
    have before : (List.replicate (cycles cfg d - 1) (carrierCycle cfg)).flatten.length = 26 * (cycles cfg d - 1) := by
      simp [List.length_flatten, Nat.mul_comm]
    rw [burstWave_eq_append d h1, show 26 * cycles cfg d - 16 = 26 * (cycles cfg d - 1) + 10 by omega, ← before,
      List.drop_length_add_append]
    rfl

/-! ### The counts of a frame (R98) -/

/-- The carrier cycles of a segment. -/
def cyclesOf (k : Config) : Seg → Nat
  | .burst t => cycles k t.toNat
  | .space _ => 0

section counts
variable {k : Config}

theorem length_segWave (g : Seg) : (segWave k g).length = emitted k g := by
  cases g with
  | burst t => exact length_burstWave _
  | space t => exact List.length_replicate

/-- The waveform of a list of segments is as long as their emitted durations. -/
theorem length_segWaves (L : List Seg) : (L.flatMap (segWave k)).length = (L.map (emitted k)).sum := by
  simp only [List.length_flatMap, length_segWave]

theorem count_segWaves (L : List Seg) : (L.flatMap (segWave k)).count true = k.tHigh * (L.map (cyclesOf k)).sum := by
  induction L with
  | nil => rfl
  | cons g L ih =>
    rw [List.flatMap_cons, List.count_append, ih, List.map_cons, List.sum_cons, Nat.mul_add]
    cases g with
    | burst t => rw [segWave, count_burstWave, cyclesOf]
    | space t => simp [segWave, spaceWave, cyclesOf, List.count_replicate]

theorem risingEdges_segWaves (hh : 1 ≤ k.tHigh) (hl : 1 ≤ k.tLow) (L : List Seg) :
    risingEdges false (L.flatMap (segWave k)) = (L.map (cyclesOf k)).sum := by
  induction L with
  | nil => rfl
  | cons g L ih =>
    rw [List.flatMap_cons, List.map_cons, List.sum_cons, ← ih]
    cases g with
    | burst t => exact risingEdges_burstWave _ _ hh hl
    | space t => rw [segWave, spaceWave, risingEdges_replicate, cyclesOf, Nat.zero_add]

/-- Segments of a kind that every data symbol has n of. -/
theorem countP_segList (p : Seg → Bool) {n : Nat} (hb : ∀ b, (bitSymbol k b).countP p = n) (c : Cmd) :
    (segList k c).countP p = (leaderSymbol k).countP p + 32 * n + (stopSymbol k).countP p := by
  have symbols : List.countP p ∘ bitSymbol k = fun _ => n := funext hb
  rw [segList, List.countP_append, List.countP_append, List.countP_flatMap, symbols, List.map_const',
    List.sum_replicate, length_frameBits, smul_eq_mul]

end counts

/-- A sum over the segment list does not depend on the device identifier but by n1. -/
theorem sum_segList_source (D : BitVec 16) (c : Cmd) (g : Seg → Nat) :
    ((segList { cfg with deviceId := D } c).map g).sum =
      ((leaderSymbol cfg).map g).sum +
        (ones { cfg with deviceId := D } c * ((bitSymbol cfg true).map g).sum +
          (32 - ones { cfg with deviceId := D } c) * ((bitSymbol cfg false).map g).sum) +
        ((stopSymbol cfg).map g).sum := sum_segList _ g c

/-- 1073 carrier cycles, whatever the device identifier (R98). -/
theorem sum_cyclesOf_segList (D : BitVec 16) (c : Cmd) :
    ((segList { cfg with deviceId := D } c).map (cyclesOf { cfg with deviceId := D })).sum = 1073 := by
  have source : cyclesOf { cfg with deviceId := D } = cyclesOf cfg := rfl
  have leader : ((leaderSymbol cfg).map (cyclesOf cfg)).sum = 347 := by decide
  have one : ((bitSymbol cfg true).map (cyclesOf cfg)).sum = 22 := by decide
  have zero : ((bitSymbol cfg false).map (cyclesOf cfg)).sum = 22 := by decide
  have stop : ((stopSymbol cfg).map (cyclesOf cfg)).sum = 22 := by decide
  have bound := ones_le { cfg with deviceId := D } c
  rw [sum_segList_source, source, leader, one, zero, stop]
  omega

/-- Settles O43: each data symbol has one burst and one space, and every burst 22 cycles but the leader's 347; a cycle has
one rising edge and ten high ticks. -/
theorem countsPerFrame : Obligations.CountsPerFrame := by
  intro D c k
  refine ⟨?_, ?_, ?_, ?_, ?_⟩
  · rw [← List.countP_eq_length_filter, countP_segList _ (n := 1) (fun b => rfl)]
    rfl
  · rw [← List.countP_eq_length_filter, countP_segList _ (n := 1) (fun b => rfl)]
    rfl
  · exact sum_cyclesOf_segList D c
  · rw [wave, risingEdges_segWaves (show 1 ≤ 10 by decide) (show 1 ≤ 16 by decide)]
    exact sum_cyclesOf_segList D c
  · have high : k.tHigh = 10 := rfl
    rw [wave, count_segWaves, sum_cyclesOf_segList D c, high]

/-! ### The emitted time (R100, R101) -/

/-- The waveform of a frame is as long as its emitted time, under every record. -/
theorem length_wave (k : Config) (c : Cmd) : (wave k c).length = tEmitted k c := length_segWaves _

/-- The emitted time by n1 (R100). -/
theorem tEmitted_source (D : BitVec 16) (c : Cmd) :
    tEmitted { cfg with deviceId := D } c = 32398 + 565 * ones { cfg with deviceId := D } c +
      1690 * (32 - ones { cfg with deviceId := D } c) := by
  have source : emitted { cfg with deviceId := D } = emitted cfg := rfl
  have leader : ((leaderSymbol cfg).map (emitted cfg)).sum = 9022 + 4500 := by decide
  have one : ((bitSymbol cfg true).map (emitted cfg)).sum = 572 + 565 := by decide
  have zero : ((bitSymbol cfg false).map (emitted cfg)).sum = 572 + 1690 := by decide
  have stop : ((stopSymbol cfg).map (emitted cfg)).sum = 572 := by decide
  have bound := ones_le { cfg with deviceId := D } c
  rw [tEmitted, sum_segList_source, source, leader, one, zero, stop]
  omega

/-- n1 by the fields of the frame (R101). -/
theorem ones_source (D : BitVec 16) (c : Cmd) : ones { cfg with deviceId := D } c =
    ((List.range 16).map D.getLsbD).count true + ((List.range 8).map c.getLsbD).count true + 1 := by
  rw [ones, frameBits_assembled, List.count_append, List.count_append]
  rfl

/-- Settles O45: both times are affine in n1, which is 1 at least and 25 at most. -/
theorem emittedFrameTime : Obligations.EmittedFrameTime := by
  intro D c k
  have emitted : tEmitted k c = 32398 + 565 * ones k c + 1690 * (32 - ones k c) := tEmitted_source D c
  obtain ⟨-, nominal, -⟩ : _ ∧ tNominal k c = 31980 + 565 * ones k c + 1690 * (32 - ones k c) ∧ _ :=
    nominalFrameTime D c
  have n1 : ones k c =
      ((List.range 16).map D.getLsbD).count true + ((List.range 8).map c.getLsbD).count true + 1 := ones_source D c
  have device : ((List.range 16).map D.getLsbD).count true ≤ 16 := List.count_le_length.trans (by simp)
  have command : ((List.range 8).map c.getLsbD).count true ≤ 8 := List.count_le_length.trans (by simp)
  refine ⟨?_, length_wave k c, n1, ?_, ?_, ?_, ?_⟩ <;> omega

/-! ### The reference decoder (D21) -/

section decoder

/-- Data symbols and the stop symbol decode to the bits, where the space of each bit stands for it. -/
theorem decodeSymbols_symbols {k : Config} (hm : (BitVec.ofNat 16 k.tBitMark).toNat = k.tBitMark)
    (hs : (BitVec.ofNat 16 k.tStopMark).toNat = k.tStopMark)
    (hb : ∀ b, bitOfSpace k (BitVec.ofNat 16 (bitSpaceOf k b)).toNat = some b) (bs : List Bool) :
    decodeSymbols k (bs.flatMap (bitSymbol k) ++ stopSymbol k) = some bs := by
  induction bs with
  | nil => simp only [List.flatMap_nil, List.nil_append, stopSymbol, burstSeg, decodeSymbols, hs, if_true]
  | cons b bs ih =>
    simp only [List.flatMap_cons, bitSymbol, burstSeg, spaceSeg, List.cons_append, List.nil_append, decodeSymbols, hm,
      if_true, hb]
    rw [ih]

theorem testBit_ofBits (bs : List Bool) (i : Nat) : (ofBits bs).testBit i = bs.getD i false := by
  induction bs generalizing i with
  | nil => simp [ofBits]
  | cons b bs ih =>
    have e : ofBits (b :: bs) = Nat.bit b (ofBits bs) := by rw [ofBits, Nat.bit_val, Nat.add_comm]
    rw [e]
    cases i with
    | zero => simp
    | succ i => rw [Nat.testBit_bit_succ, ih, List.getD_cons_succ]

/-- The number of a frame's bits in the order of transmission is the frame (R31). -/
theorem ofNat_ofBits_frameBits (f : FrameWord) : BitVec.ofNat 32 (ofBits (frameBits f)) = f :=
  BitVec.eq_of_getLsbD_eq fun i hi => by
    rw [BitVec.getLsbD_ofNat, testBit_ofBits]
    simp [hi, frameBits]

end decoder

/-- Settles O48: each space is the short or the long one of its bit, and the bits in the order of transmission are those of
the frame, least significant first. -/
theorem referenceDecoderRoundTrip : Obligations.ReferenceDecoderRoundTrip := by
  intro D c
  generalize hk : ({ cfg with deviceId := D } : Config) = k
  have symbols := decodeSymbols_symbols (k := k) (by subst hk; rfl) (by subst hk; rfl)
    (fun b => by subst hk; cases b <;> rfl) (frameBits (assembled k c))
  have lead : (BitVec.ofNat 16 k.tLeadMark).toNat = k.tLeadMark ∧ (BitVec.ofNat 16 k.tLeadSpace).toNat = k.tLeadSpace := by
    subst hk
    exact ⟨rfl, rfl⟩
  simp only [segList, leaderSymbol, burstSeg, spaceSeg, List.cons_append, List.nil_append, decodeSegs]
  rw [if_pos lead, symbols]
  simp [ofNat_ofBits_frameBits]

end Sys2Proof.Machine
end

section
/-! Runs of the wired block (42_timing_sequencer.md sections 1, 3, 4 and 7). Registers in the middle of a transmission fix
what is left of it on the wire: `waveLeft`. One tick shows its first level and leaves the rest; all the rest follows by
induction on the number of ticks. -/

namespace Sys2Proof.Machine

/-! ### What is left of the segment in progress -/

/-- The levels of this tick and of those after it, up to the end of the segment in progress. -/
def segLeft (k : Config) (r : Registers) : Wave :=
  match r.phase with
  | .idle => []
  | .leadMark | .bitMark | .stopMark =>
    (carrierCycle k).drop (tickIndex r) ++ (List.replicate (cyclesLeft r - 1) (carrierCycle k)).flatten
  | .leadSpace | .bitSpace => spaceWave r.srem.toNat

section segLeft
variable {k : Config} {n m d : Nat} {p : Phase} {r : Registers}

theorem segLeft_idle (hp : r.phase = .idle) : segLeft k r = [] := by
  simp [segLeft, hp]

theorem segLeft_mark (hp : r.phase.isMark = true) : segLeft k r =
    (carrierCycle k).drop (tickIndex r) ++ (List.replicate (cyclesLeft r - 1) (carrierCycle k)).flatten := by
  cases hq : r.phase <;> simp_all [segLeft, Phase.isMark]

theorem segLeft_space (hp : r.phase.isSpace = true) : segLeft k r = spaceWave r.srem.toNat := by
  cases hq : r.phase <;> simp_all [segLeft, Phase.isSpace]

/-- A burst that starts has its whole waveform left. -/
theorem segLeft_enterMark (hk : 1 ≤ k.tCycle) (hp : p.isMark = true) (hd : 1 ≤ d) (r : Registers) :
    segLeft k (enterMark k p d r) = burstWave k d := by
  rw [segLeft_mark (by simpa using hp), burstWave_eq_cons d (ceilDiv_pos hk hd)]
  simp

/-- A space that starts has its whole waveform left. -/
theorem segLeft_enterSpace (hp : p.isSpace = true) (hd : d ≤ 65535) (r : Registers) :
    segLeft k (enterSpace p d r) = spaceWave d := by
  rw [segLeft_space (by simpa using hp), enterSpace_srem, Dur.ofNat_toNat hd]

theorem irOut_mark (hp : r.phase.isMark = true) : irOut k r = decide (tickIndex r < k.tHigh) := by
  simp [irOut, hp]

theorem irOut_not_mark (hp : ¬ r.phase.isMark = true) : irOut k r = false := by
  simp [irOut, hp]

/-- The level of a cycle at its index i (R62). -/
theorem drop_carrierCycle {i : Nat} (hi : i < k.tCycle) :
    (carrierCycle k).drop i = decide (i < k.tHigh) :: (carrierCycle k).drop (i + 1) := by
  rw [List.drop_eq_getElem_cons (by simpa using hi)]
  congr 1
  by_cases h : i < k.tHigh <;> simp [carrierCycle, List.getElem_append, h]

/-- A tick that counts on shows the first level that is left. -/
theorem segLeft_countOn (h : countersOk k n m r) (hr : running k r = true) :
    segLeft k r = irOut k r :: segLeft k (countOn k r) := by
  rcases r.phase.cases_kind with hp | hp | hp
  · simp [running_idle hp] at hr
  · obtain ⟨-, -, index, -⟩ := markOk_iff.1 ((countersOk_mark hp).1 h)
    rw [segLeft_mark hp, segLeft_mark (by simpa using hp), irOut_mark hp, drop_carrierCycle index, countOn_mark hp,
      countBurst, List.cons_append]
    split
    · rw [tickIndex_setIndex, cyclesLeft_setIndex]
    · rename_i cycleEnd
      have more : 1 < cyclesLeft r := by
        have := mt (lastBurstTick_iff_le (k := k) (r := r)).2 (by simpa [running_mark hp] using hr)
        omega
      obtain ⟨c, hc⟩ := Nat.exists_eq_add_of_lt more
      rw [tickIndex_setCycles, tickIndex_setIndex, cyclesLeft_setCycles, List.drop_of_length_le (by simp; omega),
        show cyclesLeft r - 1 = c + 1 by omega]
      rfl
  · have more : 1 < r.srem.toNat := by simpa [running_space hp, lastSpaceTick] using hr
    obtain ⟨c, hc⟩ := Nat.exists_eq_add_of_lt more
    rw [segLeft_space hp, segLeft_space (by simpa using hp), irOut_not_mark (Phase.not_isMark_of_isSpace hp),
      countOn_space hp, countSpace, toNat_sub_one more.le, show r.srem.toNat = c + 1 + 1 by omega]
    rfl

/-- The last tick of a segment shows the one level that is left. -/
theorem segLeft_last (h : countersOk k n m r) (hb : r.phase ≠ .idle) (hr : running k r = false) :
    segLeft k r = [irOut k r] := by
  rcases r.phase.cases_kind with hp | hp | hp
  · exact absurd hp hb
  · have hm := (countersOk_mark hp).1 h
    obtain ⟨-, -, index, -⟩ := markOk_iff.1 hm
    obtain ⟨last, one⟩ := (lastBurstTick_iff_eq hm).1 (by simpa [running_mark hp] using hr)
    rw [segLeft_mark hp, irOut_mark hp, drop_carrierCycle index, List.drop_of_length_le (by simp; omega), one]
    rfl
  · have one := (lastSpaceTick_iff ((countersOk_space hp).1 h)).1 (by simpa [running_space hp] using hr)
    rw [segLeft_space hp, irOut_not_mark (Phase.not_isMark_of_isSpace hp), one]
    rfl

/-- A segment in progress has at least this tick left. -/
theorem segLeft_ne_nil (h : countersOk k n m r) (hb : r.phase ≠ .idle) : segLeft k r ≠ [] := by
  cases hr : running k r
  · simp [segLeft_last h hb hr]
  · simp [segLeft_countOn h hr]

end segLeft

/-! ### What is left of the transmission in progress -/

/-- The symbols of the n data bits in the low end of the frame f, and the stop symbol. -/
def symbolsLeft (k : Config) (n : Nat) (f : FrameWord) : List Seg :=
  ((List.range n).map f.getLsbD).flatMap (bitSymbol k) ++ stopSymbol k

/-- The segments still to come after the one in progress. -/
def segsLeft (k : Config) (r : Registers) : List Seg :=
  match r.phase with
  | .idle | .stopMark => []
  | .leadMark => spaceSeg k.tLeadSpace :: symbolsLeft k 32 r.frame
  | .leadSpace => symbolsLeft k 32 r.frame
  | .bitMark => spaceSeg (bitSpaceOf k (currentBit r)) :: symbolsLeft k (r.bitcnt.toNat - 1) (r.frame >>> 1)
  | .bitSpace => symbolsLeft k (r.bitcnt.toNat - 1) (r.frame >>> 1)

/-- The levels of this tick and of those after it, up to the end of the transmission in progress. -/
def waveLeft (k : Config) (r : Registers) : Wave := segLeft k r ++ (segsLeft k r).flatMap (segWave k)

/-- The bits of a frame one after the other are those of its shifts (R81). -/
theorem bits_succ (n : Nat) (f : FrameWord) :
    (List.range (n + 1)).map f.getLsbD = f.getLsbD 0 :: (List.range n).map (f >>> 1).getLsbD := by
  have next : f.getLsbD ∘ Nat.succ = (f >>> 1).getLsbD := funext fun i => by
    simp [BitVec.getLsbD_ushiftRight, Nat.add_comm]
  rw [List.range_succ_eq_map, List.map_cons, List.map_map, next]

theorem symbolsLeft_succ (k : Config) (n : Nat) (f : FrameWord) : symbolsLeft k (n + 1) f =
    burstSeg k.tBitMark :: spaceSeg (bitSpaceOf k (f.getLsbD 0)) :: symbolsLeft k n (f >>> 1) := by
  rw [symbolsLeft, bits_succ]
  rfl

section waveLeft
variable {k : Config} {r : Registers} {io : Ports}

theorem segWave_burstSeg {d : Nat} (hd : d ≤ 65535) : segWave k (burstSeg d) = burstWave k d := by
  rw [burstSeg, segWave, Dur.ofNat_toNat hd]

theorem segWave_spaceSeg {d : Nat} (hd : d ≤ 65535) : segWave k (spaceSeg d) = spaceWave d := by
  rw [spaceSeg, segWave, Dur.ofNat_toNat hd]

/-- A burst of the record, just started, with the segments L after it. -/
theorem segLeft_enterMark_append (hk : k.valid = true) {p : Phase} (hp : p.isMark = true) {d : Nat}
    (hd : d ∈ k.durations) (q : Registers) (L : List Seg) :
    segLeft k (enterMark k p d q) ++ L.flatMap (segWave k) = (burstSeg d :: L).flatMap (segWave k) := by
  obtain ⟨h1, h2⟩ := Config.durations_bounds hk hd
  rw [segLeft_enterMark (Config.tCycle_pos hk) hp h1, List.flatMap_cons, segWave_burstSeg h2]

/-- A space of the record, just started, with the segments L after it. -/
theorem segLeft_enterSpace_append (hk : k.valid = true) {p : Phase} (hp : p.isSpace = true) {d : Nat}
    (hd : d ∈ k.durations) (q : Registers) (L : List Seg) :
    segLeft k (enterSpace p d q) ++ L.flatMap (segWave k) = (spaceSeg d :: L).flatMap (segWave k) := by
  rw [segLeft_enterSpace hp (Config.durations_bounds hk hd).2, List.flatMap_cons,
    segWave_spaceSeg (Config.durations_bounds hk hd).2]

/-- At the end of a segment the next of those still to come starts. -/
theorem waveLeft_endSegment (hk : k.valid = true) (hl : legal k r = true) (hb : r.phase ≠ .idle) :
    waveLeft k (endSegment k r) = (segsLeft k r).flatMap (segWave k) := by
  cases hp : r.phase with
  | idle => exact absurd hp hb
  | leadMark =>
    simp only [endSegment, hp, endLeadMark, waveLeft, segsLeft, enterSpace_phase, enterSpace_frame]
    exact segLeft_enterSpace_append hk rfl (by simp [Config.durations]) r _
  | leadSpace =>
    obtain ⟨count, -⟩ := legal_lead hl (.inr hp)
    simp only [endSegment, hp, endLeadSpace, waveLeft, segsLeft, enterMark_phase, enterMark_frame, enterMark_bitcnt, count]
    rw [segLeft_enterMark_append hk rfl (by simp [Config.durations]), symbolsLeft_succ k 31]
    rfl
  | bitMark =>
    simp only [endSegment, hp, endBitMark, waveLeft, segsLeft, enterSpace_phase, enterSpace_frame, enterSpace_bitcnt]
    exact segLeft_enterSpace_append hk rfl (bitSpaceOf_mem k _) r _
  | bitSpace =>
    obtain ⟨h1, -, -⟩ := legal_bit hl (.inr hp)
    simp only [endSegment, hp, endBitSpace, segsLeft]
    by_cases more : 1 < r.bitcnt.toNat
    · obtain ⟨n, hn⟩ := Nat.exists_eq_add_of_lt more
      simp only [if_pos more, waveLeft, segsLeft, enterMark_phase, enterMark_frame, enterMark_bitcnt, shift_frame,
        shift_bitcnt, toNat_sub_one h1]
      rw [segLeft_enterMark_append hk rfl (by simp [Config.durations]), show r.bitcnt.toNat - 1 = n + 1 by omega,
        symbolsLeft_succ]
      rfl
    · simp only [if_neg more, waveLeft, segsLeft, enterMark_phase]
      rw [segLeft_enterMark_append hk rfl (by simp [Config.durations]), show r.bitcnt.toNat - 1 = 0 by omega]
      rfl
  | stopMark => simp [endSegment, hp, endStopMark, waveLeft, segLeft, segsLeft]

theorem segsLeft_countOn : segsLeft k (countOn k r) = segsLeft k r := by
  simp only [segsLeft, countOn_phase, countOn_frame, countOn_bitcnt, currentBit]

/-- While a transmission runs, one tick shows the first level that is left of it, whatever the caller does short of a
reset. -/
theorem waveLeft_tick (hk : k.valid = true) (hl : legal k r = true) (hb : r.phase ≠ .idle) (hr : io.rst = false) :
    waveLeft k r = irOut k r :: waveLeft k (tick k io r) := by
  obtain ⟨-, counters, -⟩ := legal_iff.1 hl
  cases hq : running k r
  · rw [tick_last hr hb hq, waveLeft_endSegment hk hl hb, waveLeft, segLeft_last counters hb hq]
    rfl
  · rw [tick_running hr hq, waveLeft, waveLeft, segLeft_countOn counters hq, segsLeft_countOn, List.cons_append]

/-- Nothing is left exactly in `IDLE`. -/
theorem waveLeft_eq_nil_iff (hl : legal k r = true) : waveLeft k r = [] ↔ r.phase = .idle := by
  obtain ⟨-, counters, -⟩ := legal_iff.1 hl
  constructor
  · intro h
    by_contra hb
    exact segLeft_ne_nil counters hb (List.append_eq_nil_iff.1 h).1
  · intro hp
    simp [waveLeft, segLeft, segsLeft, hp]

/-- After acceptance the whole of `wave(c)` is left (R86). -/
theorem waveLeft_accept (hk : k.valid = true) (c : Cmd) (r : Registers) : waveLeft k (accept k c r) = wave k c := by
  have left : waveLeft k (accept k c r) = segLeft k (enterMark k .leadMark k.tLeadMark (assemble k c r)) ++
      (spaceSeg k.tLeadSpace :: symbolsLeft k 32 (assembled k c)).flatMap (segWave k) := rfl
  rw [left, segLeft_enterMark_append hk rfl (by simp [Config.durations])]
  rfl

/-- R96: a transmission comes to `IDLE` by the end of its stop mark only, which sets `DONE`. -/
theorem tick_busy_done (hr : io.rst = false) (hb : r.phase ≠ .idle) (hi : (tick k io r).phase = .idle) :
    (tick k io r).done = true := by
  rcases tick_cases k hr r with ⟨hp, -⟩ | ⟨hp, -⟩ | ⟨-, -, e⟩ | ⟨-, -, e⟩
  · exact absurd hp hb
  · exact absurd hp hb
  · rw [e, countOn_phase] at hi
    exact absurd hi hb
  · rw [e] at hi ⊢
    cases hp : r.phase with
    | idle => exact absurd hp hb
    | stopMark => simp [endSegment, hp, endStopMark]
    | leadMark | leadSpace | bitMark => simp [endSegment, hp, endLeadMark, endLeadSpace, endBitMark] at hi
    | bitSpace =>
      simp only [endSegment, hp, endBitSpace] at hi
      split at hi <;> simp at hi

end waveLeft

/-! ### Runs of the step function -/

section runs
variable {k : Config} {io io' : Nat → Ports} {r : Registers}

/-- n ticks without reset show the first n levels that are left and leave the others. -/
theorem ticks_waveLeft (hk : k.valid = true) (n : Nat) (hl : legal k r = true) (hr : ∀ j, j < n → (io j).rst = false)
    (hn : n ≤ (waveLeft k r).length) :
    tickLevels k io n r = (waveLeft k r).take n ∧ waveLeft k (ticks k io n r) = (waveLeft k r).drop n ∧
      legal k (ticks k io n r) = true := by
  induction n generalizing io r with
  | zero => exact ⟨rfl, rfl, hl⟩
  | succ n ih =>
    have hb : r.phase ≠ .idle := fun hp => by
      rw [(waveLeft_eq_nil_iff hl).2 hp] at hn
      cases hn
    have first := waveLeft_tick hk hl hb (hr 0 (by omega))
    rw [first] at hn ⊢
    obtain ⟨levels, left, legal⟩ := ih (io := fun j => io (j + 1)) (legal_tick hk (io 0) hl)
      (fun j hj => hr (j + 1) (by omega)) (by simpa using hn)
    exact ⟨by rw [tickLevels, levels, List.take_succ_cons], left, legal⟩

/-- In the tick in which nothing is left any more `DONE` is set. -/
theorem ticks_done (hk : k.valid = true) (n : Nat) (hl : legal k r = true) (hb : r.phase ≠ .idle)
    (hr : ∀ j, j < n → (io j).rst = false) (hn : (waveLeft k r).length = n) :
    ticks k io n r = { Registers.reset with done := true } := by
  induction n generalizing io r with
  | zero => exact absurd ((waveLeft_eq_nil_iff hl).1 (List.length_eq_zero_iff.1 hn)) hb
  | succ n ih =>
    have h0 := hr 0 (by omega)
    have hl' := legal_tick hk (io 0) hl
    have left : (waveLeft k (tick k (io 0) r)).length = n := by
      rw [waveLeft_tick hk hl hb h0] at hn
      simpa using hn
    by_cases hi : (tick k (io 0) r).phase = .idle
    · have done := tick_busy_done h0 hb hi
      rw [(waveLeft_eq_nil_iff hl').2 hi] at left
      obtain rfl : 0 = n := left
      exact (legal_idle hl' hi).trans (by rw [done])
    · exact ih (io := fun j => io (j + 1)) hl' hi (fun j hj => hr (j + 1) (by omega)) left

/-- R88 under every valid record: the accepting tick is low, the ticks after it show `wave(c)`, and then `DONE` is set. -/
theorem ticks_transmission (hk : k.valid = true) {c : Cmd} (hp : r.phase = .idle) (h0 : io 0 = Ports.present c)
    (hr : ∀ j, j ≤ tEmitted k c → (io j).rst = false) :
    tickLevels k io (1 + tEmitted k c) r = false :: wave k c ∧
      ticks k io (1 + tEmitted k c) r = { Registers.reset with done := true } ∧
      ∀ m, m < tEmitted k c → legal k (ticks k io (1 + m) r) = true ∧ (ticks k io (1 + m) r).phase ≠ .idle := by
  have accepted : tick k (io 0) r = accept k c r := by
    rw [h0]
    exact tick_idle_start rfl hp rfl
  have hl := legal_accept hk c r
  have low : irOut k r = false := irOut_not_mark (by rw [hp]; decide)
  have after : ∀ j, j < tEmitted k c → (io (j + 1)).rst = false := fun j hj => hr (j + 1) (by omega)
  have length : (waveLeft k (accept k c r)).length = tEmitted k c := by rw [waveLeft_accept hk, length_wave]
  refine ⟨?_, ?_, fun m hm => ?_⟩
  · obtain ⟨levels, -⟩ := ticks_waveLeft (io := fun j => io (j + 1)) hk _ hl after length.ge
    rw [Nat.add_comm, tickLevels, accepted, levels, low, waveLeft_accept hk, List.take_of_length_le (length_wave k c).le]
  · rw [Nat.add_comm, ticks, accepted]
    exact ticks_done hk _ hl (by simp [accept]) after length
  · rw [Nat.add_comm, ticks, accepted]
    obtain ⟨-, left, legal⟩ := ticks_waveLeft (io := fun j => io (j + 1)) hk m hl
      (fun j hj => after j (by omega)) (by omega)
    refine ⟨legal, fun hi => ?_⟩
    rw [(waveLeft_eq_nil_iff legal).2 hi, eq_comm, List.drop_eq_nil_iff] at left
    omega

/-- R93: while a transmission runs, callers that assert no reset give the same registers and the same line. -/
theorem ticks_congr (n : Nat) (hr : ∀ j, (io j).rst = false) (hr' : ∀ j, (io' j).rst = false)
    (hb : ∀ m, m < n → (ticks k io m r).phase ≠ .idle) :
    ticks k io n r = ticks k io' n r ∧ tickLevels k io n r = tickLevels k io' n r := by
  induction n generalizing io io' r with
  | zero => exact ⟨rfl, rfl⟩
  | succ n ih =>
    have first : tick k (io 0) r = tick k (io' 0) r := tick_busy_ports (hr 0) (hr' 0) (hb 0 (by omega))
    obtain ⟨regs, line⟩ := ih (io := fun j => io (j + 1)) (io' := fun j => io' (j + 1)) (r := tick k (io 0) r)
      (fun j => hr (j + 1)) (fun j => hr' (j + 1)) (fun m hm => hb (m + 1) (by omega))
    rw [ticks, ticks, tickLevels, tickLevels, ← first]
    exact ⟨regs, by rw [line]⟩

end runs

/-- Settles O49: the source's record is valid with every device identifier. -/
theorem transmissionIsTheWaveForEveryDevice : Obligations.TransmissionIsTheWaveForEveryDevice := by
  intro D c io r k hp h0 hr
  obtain ⟨levels, regs, -⟩ := ticks_transmission (k := k) cfg_valid hp h0 hr
  exact ⟨levels, regs⟩

/-! ### Runs of the machine's step -/

section machine
variable {s t : State}

theorem run_succ (h : step s = .next t) (n : Nat) :
    Host.Core.run Sys2Proof.core (n + 1) s = Host.Core.run Sys2Proof.core n t := by
  simp only [Host.Core.run, Sys2Proof.core, h]

theorem levels_succ (h : step s = .next t) (n : Nat) : levels (n + 1) s = irOut cfg s.regs :: levels n t := by
  rw [levels, h]

/-- A caller that asserts no reset drives none in this tick, and asserts none later. -/
theorem drive_noReset (k : Config) (ls : List Line) (b : Bool) (h : ls.all Line.noReset = true) :
    (drive k ls b).1.rst = false ∧ (drive k ls b).2.all Line.noReset = true := by
  induction ls with
  | nil => exact ⟨rfl, rfl⟩
  | cons l ls ih =>
    obtain ⟨hl, hls⟩ : l.noReset = true ∧ ls.all Line.noReset = true := by simpa using h
    cases l with
    | reset => cases hl
    | send c => cases b <;> exact ⟨rfl, by assumption⟩
    | button x => cases b <;> exact ⟨rfl, by assumption⟩
    | waitDone =>
      cases b
      · exact ih hls
      · exact ⟨rfl, h⟩
    | idle n =>
      cases n with
      | zero => exact ih hls
      | succ n => exact ⟨rfl, hls⟩
    | force c => exact ⟨rfl, hls⟩
    | pins p => exact ⟨by simpa [Line.noReset, drive] using hl, hls⟩

theorem noReset_ports (h : noReset s = true) : s.ports.rst = false := (drive_noReset cfg _ _ h).1

theorem noReset_rest (h : noReset s = true) : s.rest.all Line.noReset = true := (drive_noReset cfg _ _ h).2

/-- The state after one step of the wired block in legal registers without reset. -/
def wiredNext (s : State) : State := { s with regs := tick cfg s.ports s.regs, caller := s.rest }

/-- The port values in the ticks of such a run, this tick's first. -/
def portsAt (s : State) (j : Nat) : Ports := (wiredNext^[j] s).ports

theorem noReset_wiredNext (h : noReset s = true) : noReset (wiredNext s) = true := noReset_rest h

theorem portsAt_rst (h : noReset s = true) (j : Nat) : (portsAt s j).rst = false := by
  induction j generalizing s with
  | zero => exact noReset_ports h
  | succ j ih => exact ih (noReset_wiredNext h)

/-- Without reset the wired block's steps are the ticks of its step function. -/
theorem run_wired (hb : s.bench = none) (hl : legal cfg s.regs = true) (hn : noReset s = true) (n : Nat) :
    levels n s = tickLevels cfg (portsAt s) n s.regs ∧
      ∃ t, Host.Core.run Sys2Proof.core n s = .next t ∧ t.bench = none ∧ t.regs = ticks cfg (portsAt s) n s.regs := by
  induction n generalizing s with
  | zero => exact ⟨rfl, s, rfl, hb, rfl⟩
  | succ n ih =>
    have hstep : step s = .next (wiredNext s) := step_wired_legal hb (noReset_ports hn) hl
    obtain ⟨line, t, ht, bench, regs⟩ := ih (s := wiredNext s) hb (legal_tick cfg_valid s.ports hl) (noReset_wiredNext hn)
    rw [levels_succ hstep, run_succ hstep, line]
    exact ⟨rfl, t, ht, bench, regs⟩

end machine

/-- Settles O50: the machine's run is one of the step function; in each of the T_emitted ticks something is left of the
transmission. -/
theorem acceptedCommandShowsItsWave : Obligations.AcceptedCommandShowsItsWave := by
  intro c s hb hl hp h0 hn
  obtain ⟨wave, done, busyTicks⟩ := ticks_transmission (io := portsAt s) cfg_valid hp h0 fun j _ => portsAt_rst hn j
  have run := run_wired hb hl hn
  refine ⟨(run _).1.trans wave, fun m h1 hm => ?_, ?_⟩
  · obtain ⟨-, t, ht, -, regs⟩ := run m
    obtain ⟨legal, busy⟩ := busyTicks (m - 1) (by omega)
    rw [Nat.add_sub_cancel' h1, ← regs] at legal busy
    exact ⟨t, ht, busy_iff.2 busy, legal_done legal busy⟩
  · obtain ⟨-, t, ht, bench, regs⟩ := run (1 + tEmitted cfg c)
    rw [done] at regs
    exact ⟨t, ht, bench, regs, by rw [regs]; rfl, by rw [regs]; rfl⟩

/-- Settles O51: both runs are the step function's, which outside `IDLE` reads no port but reset. -/
theorem callersCannotDisturbATransmission : Obligations.CallersCannotDisturbATransmission := by
  intro s s' n hb hb' hregs hl hn hn' hbusy
  have run := run_wired hb hl hn
  have run' := run_wired hb' (hregs ▸ hl) hn'
  have busyTicks : ∀ m, m < n → (ticks cfg (portsAt s) m s.regs).phase ≠ .idle := fun m hm => by
    obtain ⟨t, ht, busy⟩ := hbusy m hm
    obtain ⟨-, u, hu, -, regs⟩ := run m
    cases ht.symm.trans hu
    rw [← regs]
    exact busy_iff.1 busy
  obtain ⟨same, line⟩ := ticks_congr n (portsAt_rst hn) (portsAt_rst hn') busyTicks
  obtain ⟨levels, t, ht, -, regs⟩ := run n
  obtain ⟨levels', t', ht', -, regs'⟩ := run' n
  rw [← hregs] at levels' regs'
  exact ⟨t, t', ht, ht', by rw [regs, regs', same], by rw [levels, levels', line]⟩

end Sys2Proof.Machine
end

section
/-! Runs on the bench (30_encoding.md R51, 10_state.md R26, log 5 to 7): one rule per word run at a tick boundary; a script of
segment words shows their waveforms; and the operations of a transmission hold the registers of the wired block. -/

namespace Sys2Proof.Machine

/-! ### One word at a tick boundary -/

section oneWord
variable {k : Config} {d : Nat} (ws : List BenchWord) (s : State)

theorem decodeBench_burst (t : Dur) : decodeBench k (.seg17 (Seg.burst t).word) = .ok (.burst t) :=
  congrArg Except.ok (decodeSeg17_burst t)

theorem decodeBench_space (t : Dur) : decodeBench k (.seg17 (Seg.space t).word) = .ok (.space t) :=
  congrArg Except.ok (decodeSeg17_space t)

variable {ws s}

theorem issue_starting {w : BenchWord} {i : Instr} {t : State} (hw : decodeBench k w = .ok i) (hi : takesTime i = true)
    (ht : execIn k i { s with bench := some ws } = .next t) : issue k (w :: ws) s = .next t := by
  rw [issue_cons_next hw ht, if_pos hi]

theorem issue_timeless {w : BenchWord} {i : Instr} {t : State} (hw : decodeBench k w = .ok i) (hi : takesTime i = false)
    (ht : execIn k i { s with bench := some ws } = .next t) : issue k (w :: ws) s = issue k ws t := by
  rw [issue_cons_next hw ht, hi, if_neg Bool.false_ne_true]

variable (ws s)

/-- R51: the word of a burst of at least one tick starts it. -/
theorem issue_burst {t : Dur} (ht : t ≠ 0) : issue k (.seg17 (Seg.burst t).word :: ws) s =
    .next { s with regs := enterMark k (markAfter s.regs) t.toNat s.regs, bench := some ws } :=
  issue_starting (decodeBench_burst t) (by simpa [takesTime] using ht)
    (congrArg Host.Outcome.next (beginBurst_pos { s with bench := some ws } (Dur.toNat_pos ht)))

/-- R51: the word of a space of at least one tick starts it. -/
theorem issue_space {t : Dur} (ht : t ≠ 0) : issue k (.seg17 (Seg.space t).word :: ws) s =
    .next { s with regs := enterSpace (spaceAfter s.regs) t.toNat s.regs, bench := some ws } :=
  issue_starting (decodeBench_space t) (by simpa [takesTime] using ht)
    (congrArg Host.Outcome.next (beginSpace_pos { s with bench := some ws } (Dur.toNat_pos ht)))

/-- R64: the word of an empty burst takes no time. -/
theorem issue_burst_zero : issue k (.seg17 (Seg.burst 0).word :: ws) s = issue k ws { s with bench := some ws } :=
  issue_timeless (decodeBench_burst 0) rfl rfl

/-- D20: the word of an empty space takes no time. -/
theorem issue_space_zero : issue k (.seg17 (Seg.space 0).word :: ws) s = issue k ws { s with bench := some ws } :=
  issue_timeless (decodeBench_space 0) rfl rfl

/-- The word of a space of the record. -/
theorem issue_spaceSeg (h1 : 1 ≤ d) (h2 : d ≤ 65535) : issue k (.seg17 (spaceSeg d).word :: ws) s =
    .next { s with regs := enterSpace (spaceAfter s.regs) d s.regs, bench := some ws } := by
  have length := Dur.ofNat_toNat h2
  have ne : (BitVec.ofNat 16 d : Dur) ≠ 0 := fun h0 => by
    rw [h0] at length
    exact absurd length.symm (Nat.ne_of_gt h1)
  rw [spaceSeg, issue_space ws s ne, length]

/-- A symbol of the record with a space: its burst starts, its space is next on the bench. -/
theorem beginSymbol_on_bench (h1 : 1 ≤ d) (u : Nat) : beginSymbol k d u { s with bench := some ws } = { s with
    regs := enterMark k (markAfter s.regs) d s.regs
    bench := some (.seg17 (spaceSeg u).word :: ws) } :=
  beginBurst_pos _ h1

/-- R46: the word of a data symbol starts its burst, with its space next on the bench. -/
theorem issue_wire1 (hk : k.valid = true) (b : Bool) : issue k (.wire1 (if b then 1 else 0) :: ws) s =
    .next { s with
      regs := enterMark k (markAfter s.regs) k.tBitMark s.regs
      bench := some (.seg17 (spaceSeg (bitSpaceOf k b)).word :: ws) } := by
  obtain ⟨h1, -⟩ := Config.durations_bounds hk (d := k.tBitMark) (by simp [Config.durations])
  have symbol := fun u => beginSymbol_on_bench (k := k) ws s h1 u
  cases b
  · exact issue_starting (i := .bit0) rfl rfl (congrArg Host.Outcome.next (symbol _))
  · exact issue_starting (i := .bit1) rfl rfl (congrArg Host.Outcome.next (symbol _))

/-- R46: LEADER starts its burst, with its space next on the bench. -/
theorem issue_leader (hk : k.valid = true) : issue k (.leader :: ws) s =
    .next { s with
      regs := enterMark k (markAfter s.regs) k.tLeadMark s.regs
      bench := some (.seg17 (spaceSeg k.tLeadSpace).word :: ws) } := by
  obtain ⟨h1, -⟩ := Config.durations_bounds hk (d := k.tLeadMark) (by simp [Config.durations])
  exact issue_starting (i := .leader) rfl rfl (congrArg Host.Outcome.next (beginSymbol_on_bench ws s h1 k.tLeadSpace))

/-- R46: STOP starts its burst. -/
theorem issue_stop (hk : k.valid = true) : issue k (.stop :: ws) s =
    .next { s with regs := enterMark k (markAfter s.regs) k.tStopMark s.regs, bench := some ws } := by
  obtain ⟨h1, -⟩ := Config.durations_bounds hk (d := k.tStopMark) (by simp [Config.durations])
  exact issue_starting (i := .stop) rfl rfl
    (congrArg Host.Outcome.next (beginBurst_pos { s with bench := some ws } h1))

/-- R80: SHIFT takes no time. -/
theorem issue_shift (hb : s.regs.bitcnt ≠ 0) : issue k (.shift :: ws) s =
    issue k ws { s with regs := shift s.regs, bench := some ws } :=
  issue_timeless (i := .shift) rfl rfl (if_neg hb)

/-- R76: the frame word of the record is ASSEMBLE of its command, which takes no time. -/
theorem issue_assembled (c : Cmd) : issue k (.frame32 (assembled k c) :: ws) s =
    issue k ws { s with regs := assemble k c s.regs, bench := some ws } := by
  have word : decodeBench k (.frame32 (assembled k c)) = .ok (.assemble c k.deviceId) := by
    rw [assembled, frameOf_eq_frame32]
    exact decodeFrame32_frame32 k c
  exact issue_timeless word rfl rfl

end oneWord

/-! ### A script of segment words -/

/-- The words of a list of segments. -/
def segWords (L : List Seg) : List BenchWord := L.map fun g => .seg17 g.word

/-- The state s runs a script of segment words with the waveform W left, FRAME and BITCNT as in r. -/
structure OnScript (r : Registers) (s : State) (W : Wave) : Prop where
  noReset : noReset s = true
  inRange : benchLegal cfg s.regs = true
  frame : s.regs.frame = r.frame
  bitcnt : s.regs.bitcnt = r.bitcnt
  done : s.regs.done = false
  words : ∃ L, s.bench = some (segWords L) ∧ W = segLeft cfg s.regs ++ L.flatMap (segWave cfg) ∧
    (s.regs.phase = .idle → L = [])

section script
variable {s t : State} {L : List Seg} {W : Wave}

/-- The counters are in range after the words of a tick boundary. -/
theorem issue_inRange {ws : List BenchWord} (hd : s.regs.done = false) (h : issue cfg ws s = .next t) :
    benchLegal cfg t.regs = true := (issue_next cfg_valid ws s t hd h).1

/-- Whatever words of the script are run at a tick boundary, the waveforms of all of them are left. -/
theorem issue_segWords (hn : noReset s = true) (hd : s.regs.done = false) :
    ∃ t, issue cfg (segWords L) s = .next t ∧ OnScript s.regs t (L.flatMap (segWave cfg)) := by
  induction L generalizing s with
  | nil => exact ⟨_, rfl, hn, issue_inRange (ws := []) hd rfl, rfl, rfl, hd, [], rfl, rfl, fun _ => rfl⟩
  | cons g L ih =>
    have skip : issue cfg (segWords (g :: L)) s = issue cfg (segWords L) { s with bench := some (segWords L) } →
        segWave cfg g = [] →
        ∃ t, issue cfg (segWords (g :: L)) s = .next t ∧ OnScript s.regs t ((g :: L).flatMap (segWave cfg)) := by
      intro next empty
      obtain ⟨t, ht, on⟩ := ih (s := { s with bench := some (segWords L) }) hn hd
      exact ⟨t, next.trans ht, by rwa [List.flatMap_cons, empty]⟩
    cases g with
    | burst d =>
      by_cases h0 : d = 0
      · subst h0
        exact skip (issue_burst_zero _ s) rfl
      · have starts := issue_burst (k := cfg) (segWords L) s h0
        refine ⟨_, starts, hn, issue_inRange hd starts, rfl, rfl, hd, L, rfl, ?_, fun hi => ?_⟩
        · rw [segLeft_enterMark (by decide) (markAfter_isMark _) (Dur.toNat_pos h0)]
          rfl
        · exact absurd hi (Phase.isMark_ne_idle (markAfter_isMark _))
    | space d =>
      by_cases h0 : d = 0
      · subst h0
        exact skip (issue_space_zero _ s) rfl
      · have starts := issue_space (k := cfg) (segWords L) s h0
        refine ⟨_, starts, hn, issue_inRange hd starts, rfl, rfl, hd, L, rfl, ?_, fun hi => ?_⟩
        · rw [segLeft_enterSpace (spaceAfter_isSpace _) (Nat.le_of_lt_succ d.isLt)]
          rfl
        · exact absurd hi (Phase.isSpace_ne_idle (spaceAfter_isSpace _))

/-- A tick of the script at which no segment goes on runs the next words. -/
theorem step_segWords (hb : s.bench = some (segWords L)) (hn : noReset s = true) (hl : benchLegal cfg s.regs = true)
    (hq : running cfg s.regs = false) :
    ∃ t, step s = .next t ∧ OnScript (lowerIfIdle s.regs) t (L.flatMap (segWave cfg)) := by
  rw [step_bench_issue hb (noReset_ports hn) hl hq]
  exact issue_segWords (s := { s with regs := lowerIfIdle s.regs, caller := s.rest }) (noReset_rest hn)
    (lowerIfIdle_done hl)

/-- One tick of the script shows the first level that is left. -/
theorem OnScript.next_level {r : Registers} {x : Bool} (h : OnScript r s (x :: W)) :
    irOut cfg s.regs = x ∧ ∃ t, step s = .next t ∧ OnScript r t W := by
  obtain ⟨L, hb, hw, hidle⟩ := h.words
  have busy : s.regs.phase ≠ .idle := fun hp => by simp [hidle hp, segLeft_idle hp] at hw
  obtain ⟨-, counters⟩ := benchLegal_iff.1 h.inRange
  cases hq : running cfg s.regs
  · rw [segLeft_last counters busy hq] at hw
    obtain ⟨rfl, rfl⟩ := List.cons_eq_cons.1 hw
    obtain ⟨t, ht, on⟩ := step_segWords hb h.noReset h.inRange hq
    rw [lowerIfIdle, if_neg busy] at on
    exact ⟨rfl, t, ht, { on with frame := on.frame.trans h.frame, bitcnt := on.bitcnt.trans h.bitcnt }⟩
  · rw [segLeft_countOn counters hq] at hw
    obtain ⟨rfl, rfl⟩ := List.cons_eq_cons.1 hw
    exact ⟨rfl, _, step_bench_running hb (noReset_ports h.noReset) h.inRange hq, noReset_rest h.noReset,
      benchLegal_countOn h.inRange hq, by simpa using h.frame, by simpa using h.bitcnt, by simpa using h.done,
      L, hb, rfl, by simpa using hidle⟩

/-- The script shows all that is left, and then nothing is. -/
theorem OnScript.run {r : Registers} (h : OnScript r s W) :
    levels W.length s = W ∧ ∃ t, Host.Core.run Sys2Proof.core W.length s = .next t ∧ OnScript r t [] := by
  induction W generalizing s with
  | nil => exact ⟨rfl, s, rfl, h⟩
  | cons x W ih =>
    obtain ⟨first, u, hstep, on⟩ := h.next_level
    obtain ⟨line, t, ht, done⟩ := ih on
    exact ⟨by rw [List.length_cons, levels_succ hstep, first, line], t, by rw [List.length_cons, run_succ hstep, ht], done⟩

/-- In `IDLE` with no counter running, only FRAME, BITCNT and DONE are not given. -/
theorem idle_registers {r : Registers} (hp : r.phase = .idle) (hl : benchLegal cfg r = true) :
    r = { Registers.reset with frame := r.frame, bitcnt := r.bitcnt, done := r.done } := by
  obtain ⟨-, counters⟩ := benchLegal_iff.1 hl
  obtain ⟨burst, space⟩ := (countersOk_idle hp).1 counters
  obtain ⟨h1, h2, h3, h4⟩ := noBurst_iff.1 burst
  obtain ⟨p, f, b, cr, ch, sr, d, x, y⟩ := r
  simp_all [Registers.reset]

/-- With nothing left no segment is in progress and no word is left. -/
theorem OnScript.end_registers {r : Registers} (h : OnScript r s []) :
    s.bench = some [] ∧ s.regs = { Registers.reset with frame := r.frame, bitcnt := r.bitcnt } := by
  obtain ⟨L, hb, hw, hidle⟩ := h.words
  obtain ⟨-, counters⟩ := benchLegal_iff.1 h.inRange
  have idle : s.regs.phase = .idle := by
    by_contra busy
    exact segLeft_ne_nil counters busy (List.append_eq_nil_iff.1 hw.symm).1
  refine ⟨by rw [hb, hidle idle]; rfl, ?_⟩
  rw [idle_registers idle h.inRange, h.frame, h.bitcnt, h.done]
  rfl

end script

/-- Settles O53: the first tick is low and runs the first words; from then on each tick shows the first level that is left
of the script. -/
theorem modulatorAloneShowsItsScript : Obligations.ModulatorAloneShowsItsScript := by
  intro L s hb hl hp hn
  obtain ⟨u, hstep, on⟩ := step_segWords (L := L) hb hn hl (running_idle hp)
  obtain ⟨line, t, ht, done⟩ := on.run
  obtain ⟨bench, regs⟩ := done.end_registers
  have low : irOut cfg s.regs = false := irOut_not_mark (by rw [hp]; decide)
  rw [length_segWaves] at line ht
  rw [Nat.add_comm, levels_succ hstep, run_succ hstep, line, low]
  refine ⟨rfl, t, ht, bench, regs.trans ?_⟩
  rw [lowerIfIdle, if_pos hp, idle_registers hp hl]
  rfl

/-! ### The operations of a transmission -/

/-- The words of n data bits, each a symbol and SHIFT, and the stop symbol. -/
def bitWords (n : Nat) (f : FrameWord) : List BenchWord :=
  ((List.range n).map f.getLsbD).flatMap (fun bit => [.wire1 (if bit then 1 else 0), .shift]) ++ [.stop]

theorem bitWords_succ (n : Nat) (f : FrameWord) :
    bitWords (n + 1) f = .wire1 (if f.getLsbD 0 then 1 else 0) :: .shift :: bitWords n (f >>> 1) := by
  rw [bitWords, bits_succ]
  rfl

/-- The words still to come on the bench where the sequencer of the wired block holds the registers r. -/
def wordsLeft (k : Config) (r : Registers) : List BenchWord :=
  match r.phase with
  | .idle | .stopMark => []
  | .leadMark => .seg17 (spaceSeg k.tLeadSpace).word :: bitWords 32 r.frame
  | .leadSpace => bitWords 32 r.frame
  | .bitMark =>
    .seg17 (spaceSeg (bitSpaceOf k (currentBit r))).word :: .shift :: bitWords (r.bitcnt.toNat - 1) (r.frame >>> 1)
  | .bitSpace => .shift :: bitWords (r.bitcnt.toNat - 1) (r.frame >>> 1)

section transmission
variable {k : Config} {r : Registers}

theorem wordsLeft_countOn : wordsLeft k (countOn k r) = wordsLeft k r := by
  simp only [wordsLeft, countOn_phase, countOn_frame, countOn_bitcnt, currentBit]

/-- At the end of a segment that is not the stop mark, the words still to come do what the sequencer does. -/
theorem issue_wordsLeft (hk : k.valid = true) (hl : legal k r = true) (hb : r.phase ≠ .idle)
    (hstop : r.phase ≠ .stopMark) {s : State} (hs : s.regs = r) :
    issue k (wordsLeft k r) s =
      .next { s with regs := endSegment k r, bench := some (wordsLeft k (endSegment k r)) } := by
  cases hp : r.phase with
  | idle => exact absurd hp hb
  | stopMark => exact absurd hp hstop
  | leadMark =>
    obtain ⟨h1, h2⟩ := Config.durations_bounds hk (d := k.tLeadSpace) (by simp [Config.durations])
    simp only [wordsLeft, endSegment, hp, endLeadMark]
    rw [issue_spaceSeg _ s h1 h2, hs]
    simp [spaceAfter, hp]
  | leadSpace =>
    obtain ⟨count, -⟩ := legal_lead hl (.inr hp)
    simp only [wordsLeft, endSegment, hp, endLeadSpace]
    rw [bitWords_succ 31, issue_wire1 _ s hk, hs]
    simp [markAfter, hp, count, currentBit]
  | bitMark =>
    obtain ⟨h1, h2⟩ := Config.durations_bounds hk (bitSpaceOf_mem k (currentBit r))
    simp only [wordsLeft, endSegment, hp, endBitMark]
    rw [issue_spaceSeg _ s h1 h2, hs]
    simp [spaceAfter, hp]
  | bitSpace =>
    obtain ⟨h1, -, -⟩ := legal_bit hl (.inr hp)
    have count : (shift r).bitcnt.toNat = r.bitcnt.toNat - 1 := toNat_sub_one h1
    have left : s.regs.bitcnt ≠ 0 := fun h0 => by simp [← hs, h0] at h1
    have shifted : wordsLeft k r = .shift :: bitWords (shift r).bitcnt.toNat (shift r).frame := by
      rw [count]
      simp [wordsLeft, hp]
    rw [shifted, issue_shift _ s left, hs]
    simp only [endSegment, hp, endBitSpace]
    by_cases more : 1 < r.bitcnt.toNat
    · obtain ⟨n, hn⟩ := Nat.exists_eq_add_of_lt more
      have left : (shift r).bitcnt.toNat = n + 1 := by omega
      have ne : (shift r).bitcnt ≠ 0 := fun h0 => by
        rw [h0] at left
        cases left
      rw [left, bitWords_succ, issue_wire1 _ _ hk, if_pos more]
      simp only [wordsLeft, enterMark_phase, enterMark_bitcnt, enterMark_frame, left, markAfter, shift_phase, hp,
        if_neg ne, currentBit, Nat.add_sub_cancel]
    · have left : (shift r).bitcnt = 0 := BitVec.eq_of_toNat_eq (by rw [count]; simp; omega)
      rw [left]
      refine (issue_stop _ _ hk).trans ?_
      simp only [wordsLeft, enterMark_phase, markAfter, shift_phase, hp, left, if_true, if_neg more]

/-- The counters the wired block allows are in range on the bench. -/
theorem benchLegal_of_legal (h : legal cfg r = true) : benchLegal cfg r = true := by
  obtain ⟨hd, hc, -⟩ := legal_iff.1 h
  refine benchLegal_iff.2 ⟨hd, ?_⟩
  rcases r.phase.cases_kind with hp | hp | hp
  · exact (countersOk_idle hp).2 ((countersOk_idle hp).1 hc)
  · obtain ⟨h1, h2, h34⟩ := markOk_iff.1 ((countersOk_mark hp).1 hc)
    exact (countersOk_mark hp).2 (markOk_iff.2 ⟨h1, h2.trans (by simp), h34⟩)
  · obtain ⟨h1, h2, hrest⟩ := spaceOk_iff.1 ((countersOk_space hp).1 hc)
    exact (countersOk_space hp).2 (spaceOk_iff.2 ⟨h1, h2.trans (by simp), hrest⟩)

/-- The bench b does what is left of the transmission in the wired block s: they hold the same registers. -/
structure InStep (s b : State) : Prop where
  wired : s.bench = none
  inRange : legal cfg s.regs = true
  noReset : noReset s = true
  noReset_bench : Machine.noReset b = true
  same : b.regs = s.regs
  words : b.bench = some (wordsLeft cfg s.regs)

variable {s b : State}

/-- A tick of the transmission that is not its last keeps block and bench in step. -/
theorem InStep.tick_of_busy (h : InStep s b) (hb : s.regs.phase ≠ .idle)
    (hnext : (tick cfg s.ports s.regs).phase ≠ .idle) :
    ∃ b', step s = .next (wiredNext s) ∧ step b = .next b' ∧ InStep (wiredNext s) b' := by
  have hr := noReset_ports h.noReset
  have hr' := noReset_ports h.noReset_bench
  have onBench : benchLegal cfg b.regs = true := h.same ▸ benchLegal_of_legal h.inRange
  have block : step s = .next (wiredNext s) := step_wired_legal h.wired hr h.inRange
  have legalNext := legal_tick cfg_valid s.ports h.inRange
  cases hq : running cfg s.regs
  · have last := tick_last hr hb hq
    have hstop : s.regs.phase ≠ .stopMark := fun hp => by simp [last, endSegment, hp, endStopMark] at hnext
    have bench := step_bench_issue h.words hr' onBench (by rw [h.same]; exact hq)
    rw [issue_wordsLeft cfg_valid h.inRange hb hstop (by rw [h.same, lowerIfIdle, if_neg hb]), ← last] at bench
    exact ⟨_, block, bench, h.wired, legalNext, noReset_rest h.noReset, noReset_rest h.noReset_bench, rfl, rfl⟩
  · have counts := tick_running hr hq
    have bench := step_bench_running h.words hr' onBench (by rw [h.same]; exact hq)
    rw [h.same, ← counts] at bench
    refine ⟨_, block, bench, h.wired, legalNext, noReset_rest h.noReset, noReset_rest h.noReset_bench, rfl, ?_⟩
    exact h.words.trans (by rw [wiredNext, counts, wordsLeft_countOn])

/-- Block and bench hold the same registers as long as something is left of the transmission. -/
theorem InStep.run (n : Nat) (h : InStep s b) (hn : n < (waveLeft cfg s.regs).length) :
    ∃ t t', Host.Core.run Sys2Proof.core n s = .next t ∧ Host.Core.run Sys2Proof.core n b = .next t' ∧
      t.regs = t'.regs := by
  induction n generalizing s b with
  | zero => exact ⟨s, b, rfl, rfl, h.same.symm⟩
  | succ n ih =>
    have hb : s.regs.phase ≠ .idle := fun hp => by simp [(waveLeft_eq_nil_iff h.inRange).2 hp] at hn
    rw [waveLeft_tick cfg_valid h.inRange hb (noReset_ports h.noReset), List.length_cons, Nat.add_lt_add_iff_right] at hn
    have hnext : (tick cfg s.ports s.regs).phase ≠ .idle := fun hp => by
      rw [(waveLeft_eq_nil_iff (legal_tick cfg_valid s.ports h.inRange)).2 hp] at hn
      cases hn
    obtain ⟨b', block, bench, next⟩ := h.tick_of_busy hb hnext
    rw [run_succ block, run_succ bench]
    exact ih next hn

/-- ASSEMBLE and LEADER in `IDLE` do what acceptance does (R90). -/
theorem enterMark_assemble_idle (hp : r.phase = .idle) (c : Cmd) :
    enterMark k (markAfter (assemble k c (lowerIfIdle r))) k.tLeadMark (assemble k c (lowerIfIdle r)) = accept k c r := by
  have phase : markAfter (assemble k c (lowerDone r)) = .leadMark := by simp [markAfter, hp]
  rw [lowerIfIdle, if_pos hp, phase]
  rfl

/-- The words up to LEADER, run in `IDLE`, leave the words of the data bits and the stop symbol to come. -/
theorem issue_acceptance (hk : k.valid = true) (hp : r.phase = .idle) (c : Cmd) {s : State} (hs : s.regs = lowerIfIdle r) :
    issue k (.frame32 (assembled k c) :: .leader :: bitWords 32 (assembled k c)) s =
      .next { s with regs := accept k c r, bench := some (wordsLeft k (accept k c r)) } := by
  rw [issue_assembled, issue_leader _ _ hk, hs, enterMark_assemble_idle hp]
  rfl

end transmission

/-- Settles O54: the words up to LEADER do what acceptance does, and from then on block and bench are in step. -/
theorem transmissionIsItsOperations : Obligations.TransmissionIsItsOperations := by
  intro c s b n wired hl hp h0 hn hn' same words hle
  cases n with
  | zero => exact ⟨s, b, rfl, rfl, same.symm⟩
  | succ n =>
    have accepted : tick cfg s.ports s.regs = accept cfg c s.regs := by
      rw [h0]
      exact tick_idle_start rfl hp rfl
    have block : step s = .next (wiredNext s) := step_wired_legal wired (noReset_ports hn) hl
    have regs : (wiredNext s).regs = accept cfg c s.regs := accepted
    rw [List.append_assoc] at words
    have bench := (step_bench_issue words (noReset_ports hn') (same ▸ benchLegal_of_legal hl)
      (running_idle (by rw [same, hp]))).trans (issue_acceptance cfg_valid hp c (by rw [same]))
    have inStep : InStep (wiredNext s) { b with
        regs := accept cfg c s.regs
        caller := b.rest
        bench := some (wordsLeft cfg (accept cfg c s.regs)) } :=
      ⟨wired, regs ▸ legal_accept cfg_valid c s.regs, noReset_rest hn, noReset_rest hn', regs.symm, by rw [regs]⟩
    rw [run_succ block, run_succ bench]
    refine inStep.run n ?_
    rw [regs, waveLeft_accept cfg_valid, length_wave]
    omega

end Sys2Proof.Machine
end
